-- ==== Sys2Proof/Word.lean ====
section
/-! DEFINITION. The bit-vector widths of the block: bytes, words and the fields of an opcode (spec R7, R71). -/

namespace Sys2Proof

/-- One memory cell, one general register, one timer, one sprite row (R21, R23, R29). -/
abbrev Byte := BitVec 8

/-- The index register, the program counter, a return address, an opcode (R25, R26, R27, R70). -/
abbrev Word := BitVec 16

/-- The field NNN: a 12-bit address or constant (R71). -/
abbrev Addr := BitVec 12

/-- The fields X and Y: the number of a general register (R71). -/
abbrev Reg := BitVec 4

/-- The field N: a 4-bit row count (R71). -/
abbrev Nibble := BitVec 4

/-- Register VF, number 15, which is also the flag output (R24). -/
abbrev VF : Reg := 0xF#4

end Sys2Proof
end

