-- ==== Sys2Proof/Syntax.lean ====
section
/-! DEFINITION. The syntax: the 34 instructions of the opcode map (spec R75), the words outside it (R76), what a
decoder answers, and the host's operations (R6). Every operand has exactly the width of its field (R71), so a term of
Instr is an instruction of the map whatever its operands are. -/

namespace Sys2Proof

/-- One constructor per row of the opcode map of R75, in its order. -/
inductive Instr where
  /-- 00E0, CLS: clear the display (R170). -/
  | cls
  /-- 00EE, RET: return (R102). -/
  | ret
  /-- 1NNN, JP addr: jump (R103). -/
  | jp (nnn : Addr)
  /-- 2NNN, CALL addr: call (R104). -/
  | call (nnn : Addr)
  /-- 3XNN, SE Vx, byte: skip if V[X] = NN (R105). -/
  | seByte (x : Reg) (nn : Byte)
  /-- 4XNN, SNE Vx, byte: skip if V[X] differs from NN (R106). -/
  | sneByte (x : Reg) (nn : Byte)
  /-- 5XY0, SE Vx, Vy: skip if V[X] = V[Y] (R107). -/
  | seReg (x y : Reg)
  /-- 6XNN, LD Vx, byte: load immediate (R122). -/
  | ldByte (x : Reg) (nn : Byte)
  /-- 7XNN, ADD Vx, byte: add immediate, no flag (R123). -/
  | addByte (x : Reg) (nn : Byte)
  /-- 8XY0, LD Vx, Vy: copy (R124). -/
  | ldReg (x y : Reg)
  /-- 8XY1, OR Vx, Vy (R125). -/
  | orReg (x y : Reg)
  /-- 8XY2, AND Vx, Vy (R126). -/
  | andReg (x y : Reg)
  /-- 8XY3, XOR Vx, Vy (R127). -/
  | xorReg (x y : Reg)
  /-- 8XY4, ADD Vx, Vy: add with carry flag (R128). -/
  | addReg (x y : Reg)
  /-- 8XY5, SUB Vx, Vy: subtract with no-borrow flag (R129). -/
  | subReg (x y : Reg)
  /-- 8XY6, SHR Vx, Vy: shift right; Y is encoded and not read (R130). -/
  | shrReg (x y : Reg)
  /-- 8XY7, SUBN Vx, Vy: reverse subtract (R131). -/
  | subnReg (x y : Reg)
  /-- 8XYE, SHL Vx, Vy: shift left; Y is encoded and not read (R132). -/
  | shlReg (x y : Reg)
  /-- 9XY0, SNE Vx, Vy: skip if V[X] differs from V[Y] (R108). -/
  | sneReg (x y : Reg)
  /-- ANNN, LD I, addr (R150). -/
  | ldI (nnn : Addr)
  /-- BNNN, JP V0, addr: jump to V[0] + NNN (R109). -/
  | jpV0 (nnn : Addr)
  /-- CXNN, RND Vx, byte: random byte masked (R136). -/
  | rnd (x : Reg) (nn : Byte)
  /-- DXYN, DRW Vx, Vy, nibble: draw a sprite of N rows (R172). -/
  | drw (x y : Reg) (n : Nibble)
  /-- EX9E, SKP Vx: skip if key V[X] is pressed (R191). -/
  | skp (x : Reg)
  /-- EXA1, SKNP Vx: skip if key V[X] is not pressed (R192). -/
  | sknp (x : Reg)
  /-- FX07, LD Vx, DT: read the delay timer (R200). -/
  | ldVxDT (x : Reg)
  /-- FX0A, LD Vx, K: wait for a key (R193). -/
  | ldVxK (x : Reg)
  /-- FX15, LD DT, Vx: set the delay timer (R201). -/
  | ldDTVx (x : Reg)
  /-- FX18, LD ST, Vx: set the sound timer (R202). -/
  | ldSTVx (x : Reg)
  /-- FX1E, ADD I, Vx (R151). -/
  | addIVx (x : Reg)
  /-- FX29, LD F, Vx: point I at a glyph (R152). -/
  | ldFVx (x : Reg)
  /-- FX33, LD B, Vx: store decimal digits (R154). -/
  | ldBVx (x : Reg)
  /-- FX55, LD [I], Vx: store V0..VX (R155). -/
  | storeRegs (x : Reg)
  /-- FX65, LD Vx, [I]: load V0..VX (R156). -/
  | loadRegs (x : Reg)
  deriving DecidableEq, Repr

/-- The six parts of the no-op space, named by their top nibble (the list of R76). -/
inductive NoOpSpace where
  /-- 0x0000..0x0FFF except 00E0 and 00EE. -/
  | family0
  /-- 5XYn with n other than 0. -/
  | family5
  /-- 8XYn with n in 8, 9, A, B, C, D, F. -/
  | family8
  /-- 9XYn with n other than 0. -/
  | family9
  /-- EXnn with nn other than 9E and A1. -/
  | familyE
  /-- FXnn with nn outside the nine second bytes of R75. -/
  | familyF
  deriving DecidableEq, Repr

/-- What a word decodes to: an instruction of R75, or the no-op of R76 with the part of the no-op space it lies in (R77). -/
inductive Decoded where
  | instr (i : Instr)
  | noOp (space : NoOpSpace)
  deriving DecidableEq, Repr

/-- Why a byte string gives no word: an instruction is exactly two bytes (R70). -/
inductive DecodeError where
  | truncated
  deriving DecidableEq, Repr

/-- The operations of the block's interface (R6). The arguments are raw: WellFormed checks them. -/
inductive HostOp where
  /-- construct(image): reset and program load (R250). -/
  | construct (image : List Byte)
  /-- step(): one instruction (R90). -/
  | step
  /-- tick_timers() (R230). -/
  | tickTimers
  /-- set_key(k, pressed), for k in 0..15 (R233). -/
  | setKey (k : Nat) (pressed : Bool)
  /-- pause() (R236). -/
  | pause
  /-- resume() (R236). -/
  | resume
  deriving DecidableEq, Repr

end Sys2Proof
end

