-- ==== Sys2Proof/WellFormed.lean ====
section
/-! DEFINITION. The checks on raw input: a program image, a key number, a host operation, a word of the opcode table.
A term of Instr needs none: each operand has the width of its field (spec R71, R72), so no ill-formed one can be
written down. -/

namespace Sys2Proof

/-- An image fits memory from 0x200 up: at most 3584 bytes (R250, R251). -/
def imageWellFormed (image : List Byte) : Bool :=
  decide (image.length ≤ 3584)

/-- A key number names one of the 16 keys (R31, R233). -/
def keyWellFormed (k : Nat) : Bool :=
  decide (k < 16)

/-- A host operation whose raw argument the block takes (R6, R233, R251). -/
def HostOp.wellFormed : HostOp → Bool
  | .construct image => imageWellFormed image
  | .setKey k _ => keyWellFormed k
  | .step => true
  | .tickTimers => true
  | .pause => true
  | .resume => true

/-- A word of the opcode table: given in at most the 16 bits that every instruction has (R70), and inside them. -/
def tableWordWellFormed (nbits w : Nat) : Bool :=
  decide (nbits ≤ 16) && decide (w < 2 ^ nbits)

end Sys2Proof
end

