-- ==== Sys2Proof/Decode.lean ====
section
/-! DEFINITION. Instruction words: the fields of an opcode (spec R71), the opcode map as a table of mask and match
(R74, R75), the decoder over words and over bytes, and the encoder written from the layouts of R73 and R75. -/

namespace Sys2Proof

/-! ### Fields (R71) -/

/-- T = op[15:12], the primary opcode. -/
def fieldT (op : Word) : BitVec 4 := op.extractLsb' 12 4

/-- X = op[11:8]. -/
def fieldX (op : Word) : Reg := op.extractLsb' 8 4

/-- Y = op[7:4]. -/
def fieldY (op : Word) : Reg := op.extractLsb' 4 4

/-- N = op[3:0]. -/
def fieldN (op : Word) : Nibble := op.extractLsb' 0 4

/-- NN = op[7:0]. -/
def fieldNN (op : Word) : Byte := op.extractLsb' 0 8

/-- NNN = op[11:0]. -/
def fieldNNN (op : Word) : Addr := op.extractLsb' 0 12

/-! ### Byte order (R54) -/

/-- The opcode held by two consecutive bytes: the byte at the lower address is bits 15..8. -/
def wordOfBytes (hi lo : Byte) : Word := hi ++ lo

/-- Bits 15..8 of a word: its byte at the lower address. -/
def highByte (w : Word) : Byte := w.extractLsb' 8 8

/-- Bits 7..0 of a word: its byte at the higher address. -/
def lowByte (w : Word) : Byte := w.extractLsb' 0 8

/-! ### The opcode map (R75) -/

/-- One row of the opcode map: its mask, its match, and the instruction that the fields of a word make. -/
structure Row where
  mask : Word
  pattern : Word
  build : Word → Instr

/-- A word matches a row when op & mask = match (R74). -/
def Row.matchesWord (r : Row) (op : Word) : Bool := op &&& r.mask == r.pattern

/-- Rows 00E0 to 7XNN. -/
def rowsControl : List Row := [
  ⟨0xFFFF, 0x00E0, fun _ => .cls⟩,
  ⟨0xFFFF, 0x00EE, fun _ => .ret⟩,
  ⟨0xF000, 0x1000, fun op => .jp (fieldNNN op)⟩,
  ⟨0xF000, 0x2000, fun op => .call (fieldNNN op)⟩,
  ⟨0xF000, 0x3000, fun op => .seByte (fieldX op) (fieldNN op)⟩,
  ⟨0xF000, 0x4000, fun op => .sneByte (fieldX op) (fieldNN op)⟩,
  ⟨0xF00F, 0x5000, fun op => .seReg (fieldX op) (fieldY op)⟩,
  ⟨0xF000, 0x6000, fun op => .ldByte (fieldX op) (fieldNN op)⟩,
  ⟨0xF000, 0x7000, fun op => .addByte (fieldX op) (fieldNN op)⟩]

/-- Rows 8XY0 to 9XY0. -/
def rowsAlu : List Row := [
  ⟨0xF00F, 0x8000, fun op => .ldReg (fieldX op) (fieldY op)⟩,
  ⟨0xF00F, 0x8001, fun op => .orReg (fieldX op) (fieldY op)⟩,
  ⟨0xF00F, 0x8002, fun op => .andReg (fieldX op) (fieldY op)⟩,
  ⟨0xF00F, 0x8003, fun op => .xorReg (fieldX op) (fieldY op)⟩,
  ⟨0xF00F, 0x8004, fun op => .addReg (fieldX op) (fieldY op)⟩,
  ⟨0xF00F, 0x8005, fun op => .subReg (fieldX op) (fieldY op)⟩,
  ⟨0xF00F, 0x8006, fun op => .shrReg (fieldX op) (fieldY op)⟩,
  ⟨0xF00F, 0x8007, fun op => .subnReg (fieldX op) (fieldY op)⟩,
  ⟨0xF00F, 0x800E, fun op => .shlReg (fieldX op) (fieldY op)⟩,
  ⟨0xF00F, 0x9000, fun op => .sneReg (fieldX op) (fieldY op)⟩]

/-- Rows ANNN to EXA1. -/
def rowsIndexDisplayKeys : List Row := [
  ⟨0xF000, 0xA000, fun op => .ldI (fieldNNN op)⟩,
  ⟨0xF000, 0xB000, fun op => .jpV0 (fieldNNN op)⟩,
  ⟨0xF000, 0xC000, fun op => .rnd (fieldX op) (fieldNN op)⟩,
  ⟨0xF000, 0xD000, fun op => .drw (fieldX op) (fieldY op) (fieldN op)⟩,
  ⟨0xF0FF, 0xE09E, fun op => .skp (fieldX op)⟩,
  ⟨0xF0FF, 0xE0A1, fun op => .sknp (fieldX op)⟩]

/-- Rows FX07 to FX65. -/
def rowsMisc : List Row := [
  ⟨0xF0FF, 0xF007, fun op => .ldVxDT (fieldX op)⟩,
  ⟨0xF0FF, 0xF00A, fun op => .ldVxK (fieldX op)⟩,
  ⟨0xF0FF, 0xF015, fun op => .ldDTVx (fieldX op)⟩,
  ⟨0xF0FF, 0xF018, fun op => .ldSTVx (fieldX op)⟩,
  ⟨0xF0FF, 0xF01E, fun op => .addIVx (fieldX op)⟩,
  ⟨0xF0FF, 0xF029, fun op => .ldFVx (fieldX op)⟩,
  ⟨0xF0FF, 0xF033, fun op => .ldBVx (fieldX op)⟩,
  ⟨0xF0FF, 0xF055, fun op => .storeRegs (fieldX op)⟩,
  ⟨0xF0FF, 0xF065, fun op => .loadRegs (fieldX op)⟩]

/-- The 34 rows of R75, in its order. -/
def opcodeTable : List Row := rowsControl ++ rowsAlu ++ rowsIndexDisplayKeys ++ rowsMisc

/-! ### The decoder (R74, R76, R77) -/

/-- The part of the no-op space that a word outside the opcode map lies in, by its top nibble (R76). The other top
nibbles have no no-op words; they share the last answer, which no word of theirs reaches. -/
def noOpSpaceOf (op : Word) : NoOpSpace :=
  if fieldT op = 0x0 then .family0
  else if fieldT op = 0x5 then .family5
  else if fieldT op = 0x8 then .family8
  else if fieldT op = 0x9 then .family9
  else if fieldT op = 0xE then .familyE
  else .familyF

/-- Every word decodes: to the instruction of the row it matches, else to the no-op (R77). -/
def decode (op : Word) : Decoded :=
  match opcodeTable.find? (·.matchesWord op) with
  | some r => .instr (r.build op)
  | none => .noOp (noOpSpaceOf op)

/-- Decoding a byte string: two bytes make a word (R54, R70), and the rest is handed back. -/
def decodeBytes : List Byte → Except DecodeError (Decoded × List Byte)
  | hi :: lo :: rest => .ok (decode (wordOfBytes hi lo), rest)
  | _ => .error .truncated

/-- The word of `nbits` table bits: the bits above them are 0. -/
def tableWord (nbits w : Nat) : Word := BitVec.ofNat 16 (w % 2 ^ nbits)

/-- The instruction that the decoder reads from a row's word laid out as the hardware stores it (R54). -/
def decodeTableWord (nbits w : Nat) : Option Instr :=
  if tableWordWellFormed nbits w then
    match decodeBytes [highByte (tableWord nbits w), lowByte (tableWord nbits w)] with
    | .ok (.instr i, _) => some i
    | .ok (.noOp _, _) => none
    | .error _ => none
  else none

/-! ### The encoder (R73, R75) -/

/-- Format NNN: cccc NNNN NNNN NNNN. -/
def encNNN (t : BitVec 4) (nnn : Addr) : Word := t ++ nnn

/-- Format XNN: cccc XXXX NNNN NNNN. It also lays out format X, whose low byte is fixed. -/
def encXNN (t : BitVec 4) (x : Reg) (nn : Byte) : Word := t ++ x ++ nn

/-- Format XYN: cccc XXXX YYYY NNNN. It also lays out format XY, whose low nibble is fixed. -/
def encXYN (t : BitVec 4) (x y : Reg) (n : Nibble) : Word := t ++ x ++ y ++ n

/-- The word of an instruction. -/
def encode : Instr → Word
  | .cls => 0x00E0
  | .ret => 0x00EE
  | .jp nnn => encNNN 0x1 nnn
  | .call nnn => encNNN 0x2 nnn
  | .seByte x nn => encXNN 0x3 x nn
  | .sneByte x nn => encXNN 0x4 x nn
  | .seReg x y => encXYN 0x5 x y 0x0
  | .ldByte x nn => encXNN 0x6 x nn
  | .addByte x nn => encXNN 0x7 x nn
  | .ldReg x y => encXYN 0x8 x y 0x0
  | .orReg x y => encXYN 0x8 x y 0x1
  | .andReg x y => encXYN 0x8 x y 0x2
  | .xorReg x y => encXYN 0x8 x y 0x3
  | .addReg x y => encXYN 0x8 x y 0x4
  | .subReg x y => encXYN 0x8 x y 0x5
  | .shrReg x y => encXYN 0x8 x y 0x6
  | .subnReg x y => encXYN 0x8 x y 0x7
  | .shlReg x y => encXYN 0x8 x y 0xE
  | .sneReg x y => encXYN 0x9 x y 0x0
  | .ldI nnn => encNNN 0xA nnn
  | .jpV0 nnn => encNNN 0xB nnn
  | .rnd x nn => encXNN 0xC x nn
  | .drw x y n => encXYN 0xD x y n
  | .skp x => encXNN 0xE x 0x9E
  | .sknp x => encXNN 0xE x 0xA1
  | .ldVxDT x => encXNN 0xF x 0x07
  | .ldVxK x => encXNN 0xF x 0x0A
  | .ldDTVx x => encXNN 0xF x 0x15
  | .ldSTVx x => encXNN 0xF x 0x18
  | .addIVx x => encXNN 0xF x 0x1E
  | .ldFVx x => encXNN 0xF x 0x29
  | .ldBVx x => encXNN 0xF x 0x33
  | .storeRegs x => encXNN 0xF x 0x55
  | .loadRegs x => encXNN 0xF x 0x65

/-- The two bytes of an instruction, the lower address first (R54). -/
def encodeBytes (i : Instr) : List Byte := [highByte (encode i), lowByte (encode i)]

end Sys2Proof
end

