-- ==== Sys2Proof/Config.lean ====
section
/-! DEFINITION. What the spec leaves to a parameter (spec R5): the two readings of ALU_ALIAS and the random source.
The fixed parameters are numerals where the rules use them: MEM_SIZE 0x1000, PROG_BASE 0x200, MAX_IMAGE 3584,
STACK_DEPTH 12, 64 by 32 pixels, 16 keys. INDEX_INCREMENT has the one legal value false, so nothing reads it; IPS is
the host's and no rule uses it. The values of ALU_ALIAS and FONT stand in Machine/Params.lean. -/

namespace Sys2Proof

/-- The parameter ALU_ALIAS (R5, R120): whether a register read of a flag-setting operation sees the VF write that the
same instruction made before it. -/
inductive AluAlias where
  /-- Every read sees the earlier writes of the same instruction. -/
  | sequential
  /-- Every operand is read once, before any write. -/
  | snapshot
  deriving DecidableEq, Repr

/-- FREE VALUE (assumption 3). The byte that the oracle RNG answers at its k-th draw (R35, R136). It has no body:
every claim holds for every sequence of answers. -/
opaque Config.rngByte : Nat → Byte

end Sys2Proof
end

