-- ==== Sys2Proof/Machine/State.lean ====
section
/-! DEFINITION. The Machine of spec R20, component by component, as plain data; its value right after reset (R37); and
the reasons a transaction can stop. -/

namespace Sys2Proof.Machine

open Sys2Proof

/-- Memory (R21): the cells that differ from what construct leaves with an empty image, by rising address. What an
unlisted cell holds is Memory.resetByte; Memory.wf is the canonical form (Machine/Memory.lean). -/
abbrev Memory := List Host.Cell

/-- The framebuffer (R22): 32 rows of 64 one-bit cells. Bit x of row y is the cell display[y*64 + x]. -/
abbrev Display := Vector (BitVec 64) 32

/-- The most recently fetched instruction: its opcode and the fields sliced from it (R32). -/
structure CurrentInstruction where
  opcode : Word
  nnn : Addr
  nn : Byte
  n : Nibble
  x : Reg
  y : Reg
  deriving DecidableEq, Repr

/-- The run state (R33). -/
inductive RunState where
  | running
  | paused
  | halted
  deriving DecidableEq, Repr

/-- The kinds of fault a step can raise: codes 1 to 5 of R210. -/
inductive FaultKind where
  /-- Code 1: 2NNN with SP = 12 (R211). -/
  | stackOverflow
  /-- Code 2: 00EE with SP = 0 (R212). -/
  | stackUnderflow
  /-- Code 3: a fetch with PC + 1 at or past 0x1000 (R213). -/
  | fetchOutOfRange
  /-- Code 4: a data address at or past 0x1000 in DXYN, FX33, FX55 or FX65 (R214). -/
  | dataOutOfRange
  /-- Code 5: EX9E or EXA1 with V[X] above 0x0F (R217). -/
  | keyIndexOutOfRange
  deriving DecidableEq, Repr

/-- A fault record: the kind, the address of the instruction that faulted, the word fetched there (R34). -/
structure FaultRecord where
  kind : FaultKind
  addr : Word
  opcode : Word
  deriving DecidableEq, Repr

/-- The Machine (R20). The last field is the model's own: how many bytes the random oracle has answered (R35). -/
structure State where
  mem : Memory
  display : Display
  v : Vector Byte 16
  i : Word
  pc : Word
  stack : Vector Word 12
  sp : Fin 13
  delayTimer : Byte
  soundTimer : Byte
  keypad : Vector Bool 16
  cur : CurrentInstruction
  runState : RunState
  fault : Option FaultRecord
  rngDraws : Nat
  deriving DecidableEq, Repr

/-- Why an operation produces no Machine. A step never answers one: what the spec calls a fault of a step is a state it
enters (R216). -/
inductive Fault where
  /-- Raised by construct for an image of more than 3584 bytes (R218, R251). Safe: the spec itself has construct build no
  Machine then. -/
  | imageTooLarge
  deriving DecidableEq, Repr

/-- Why a transaction has no meaning in the model. -/
inductive Refusal where
  /-- Raised by exec for an instruction without a meaning yet; no arm of exec is left that raises it. Safe: the run stops. -/
  | notModelled (mnemonic : String)
  /-- Raised by applyOp for set_key with a number above 15, which R233 leaves outside the operation. Safe: the run stops. -/
  | keyNumberOutOfRange
  deriving DecidableEq, Repr

/-- The Machine right after construct with an empty image (R37, R250): memory lists nothing, PC is 0x200, the run state
is Running, everything else is zero, off or empty. The last field starts at 0 (assumption 3). -/
def State.reset : State where
  mem := []
  display := Vector.replicate 32 0
  v := Vector.replicate 16 0
  i := 0
  pc := 0x200
  stack := Vector.replicate 12 0
  sp := 0
  delayTimer := 0
  soundTimer := 0
  keypad := Vector.replicate 16 false
  cur := ⟨0, 0, 0, 0, 0, 0⟩
  runState := .running
  fault := none
  rngDraws := 0

end Sys2Proof.Machine
end

