-- ==== Sys2Proof/Machine/Operands.lean ====
section
/-! DEFINITION. Operands: the general registers (spec R23, R72), zero extension of the fields (R72), the decimal digits
of a byte (R153), and the record of the fields of a fetched word (R71, R92). -/

namespace Sys2Proof.Machine

open Sys2Proof

/-- The read V[x] (R8, R23). -/
def State.getV (s : State) (x : Reg) : Byte := s.v[x.toNat]'x.isLt

/-- The write V[x] <- b (R8, R23). -/
def State.setV (s : State) (x : Reg) (b : Byte) : State := { s with v := s.v.set x.toNat b x.isLt }

/-- zext_16 of NNN (R72). -/
def zextAddr (nnn : Addr) : Word := nnn.setWidth 16

/-- zext_16 of a register's byte (R72). -/
def zextByte (b : Byte) : Word := b.setWidth 16

/-- The registers V[0], ..., V[count-1] in ascending order. -/
def State.firstRegs (s : State) (count : Nat) : List Byte := s.v.toList.take count

/-- V[k] <- b for consecutive registers from number `k` up, in ascending order. -/
def State.setRegsFrom : State → Nat → List Byte → State
  | s, _, [] => s
  | s, k, b :: bs => State.setRegsFrom (s.setV (BitVec.ofNat 4 k) b) (k + 1) bs

/-- The hundreds, tens and ones of a byte, each as a byte 0..9 (R153). -/
def decimalDigits (v : Byte) : List Byte :=
  [BitVec.ofNat 8 (v.toNat / 100), BitVec.ofNat 8 (v.toNat / 10 % 10), BitVec.ofNat 8 (v.toNat % 10)]

/-- The fields of a word as current_instruction records them (R71, R92). -/
def fieldsOf (op : Word) : CurrentInstruction where
  opcode := op
  nnn := fieldNNN op
  nn := fieldNN op
  n := fieldN op
  x := fieldX op
  y := fieldY op

end Sys2Proof.Machine
end

