-- ==== Sys2Proof/Machine/Flags.lean ====
section
/-! DEFINITION. The flag values written to VF (spec R24) and the one shape shared by the flag-setting operations
8XY4, 8XY5, 8XY6, 8XY7 and 8XYE (R120, R121). -/

namespace Sys2Proof.Machine

open Sys2Proof

/-- A flag as the byte VF holds: 1 or 0. -/
def flagByte (b : Bool) : Byte := if b then 1 else 0

/-- Carry of a + b: the 16-bit sum exceeds 255 (R128). -/
def carryFlag (a b : Byte) : Bool := decide (255 < (zextByte a + zextByte b).toNat)

/-- No borrow of a - b: a >= b (R129). -/
def noBorrowFlag (a b : Byte) : Bool := decide (b.toNat ≤ a.toNat)

/-- The bit shifted out to the right: bit 0 (R130). -/
def shiftRightFlag (a : Byte) : Bool := a.getLsbD 0

/-- The bit shifted out to the left: bit 7 (R132). -/
def shiftLeftFlag (a : Byte) : Bool := a.getLsbD 7

/-- The sum truncated to 8 bits (R128). -/
def sumByte (a b : Byte) : Byte := (zextByte a + zextByte b).setWidth 8

/-- A flag-setting operation on V[x] and V[y]: VF is written from the operands before the operation, then V[x] last. The
operands of the result are read after the VF write under `sequential` and before it under `snapshot` (R120, R121). -/
def State.flagOp (mode : AluAlias) (flag : Byte → Byte → Bool) (result : Byte → Byte → Byte) (x y : Reg)
    (s : State) : State :=
  let a := s.getV x
  let b := s.getV y
  let s1 := s.setV VF (flagByte (flag a b))
  match mode with
  | .sequential => s1.setV x (result (s1.getV x) (s1.getV y))
  | .snapshot => s1.setV x (result a b)

end Sys2Proof.Machine
end

