-- ==== Sys2Proof/Machine/Memory.lean ====
section
/-! DEFINITION. Memory as a list of the cells that differ from their reset contents: reading and writing one byte,
reading and writing a run of bytes, and the canonical form. Addresses are naturals computed exactly (spec R57). -/

namespace Sys2Proof.Machine

open Sys2Proof

/-- An address that names one of the 4096 cells (R50, R53). -/
def inMemory (a : Nat) : Bool := decide (a < 0x1000)

/-- What construct leaves in a cell outside the image: the font at 0x000..0x04F, else 0 (R30, R37, R51). -/
def Memory.resetByte (a : Nat) : Byte := font.getD a 0

/-- The byte at an address: the listed one, else the reset contents. -/
def Memory.read : Memory → Nat → Byte
  | [], a => Memory.resetByte a
  | (b, v) :: rest, a => if a = b then v else Memory.read rest a

/-- A cell put at its place by address. -/
def Memory.insert : Memory → Nat → Byte → Memory
  | [], a, v => [(a, v)]
  | (b, w) :: rest, a, v => if a < b then (a, v) :: (b, w) :: rest else (b, w) :: Memory.insert rest a v

/-- One byte stored. Storing the reset contents removes the entry, so that equal memories are equal lists. -/
def Memory.write (m : Memory) (a : Nat) (v : Byte) : Memory :=
  if v = Memory.resetByte a then m.filter (fun c => c.1 ≠ a)
  else Memory.insert (m.filter (fun c => c.1 ≠ a)) a v

/-- Consecutive bytes stored from an address up, in ascending order. -/
def Memory.writeBytes : Memory → Nat → List Byte → Memory
  | m, _, [] => m
  | m, a, v :: vs => Memory.writeBytes (m.write a v) (a + 1) vs

/-- The `n` bytes from an address up. -/
def Memory.readBytes (m : Memory) : Nat → Nat → List Byte
  | _, 0 => []
  | a, n + 1 => m.read a :: Memory.readBytes m (a + 1) n

/-- The canonical form: addresses strictly rising, each a cell of memory, no entry equal to the reset contents. -/
def Memory.wf (m : Memory) : Bool :=
  decide (m.Pairwise (fun c d => c.1 < d.1)) &&
    m.all (fun c => inMemory c.1 && decide (c.2 ≠ Memory.resetByte c.1))

end Sys2Proof.Machine
end

