-- ==== Sys2Proof/Machine/Ops.lean ====
section
/-! DEFINITION. The named operations that the meanings share: fetching and staging (spec R91, R92), taking a fault
(R215, R216), skips (R101), the return stack (R27), the keypad (R31), the random oracle (R35) and bytes of memory.
There is no return from a fault (R221), so none stands beside taking one. -/

namespace Sys2Proof.Machine

open Sys2Proof

/-! ### Single writes -/

/-- pc <- target (R8). -/
def State.setPc (s : State) (target : Word) : State := { s with pc := target }

/-- I <- v (R8). -/
def State.setI (s : State) (v : Word) : State := { s with i := v }

/-- The display replaced by another. -/
def State.setDisplay (s : State) (d : Display) : State := { s with display := d }

/-- delay_timer <- b (R29). -/
def State.setDelayTimer (s : State) (b : Byte) : State := { s with delayTimer := b }

/-- sound_timer <- b (R29). -/
def State.setSoundTimer (s : State) (b : Byte) : State := { s with soundTimer := b }

/-- MemRead(a, 1) (R8), for an address already checked. -/
def State.readByte (s : State) (a : Nat) : Byte := s.mem.read a

/-- MemWrite of consecutive bytes from an address up (R8), for addresses already checked. -/
def State.writeBytes (s : State) (a : Nat) (bs : List Byte) : State := { s with mem := s.mem.writeBytes a bs }

/-! ### Fetch, staging and faults -/

/-- The fetch at PC: no word when PC + 1 >= 0x1000 (R53, R91), else the big-endian word there (R54). -/
def State.fetchWord (s : State) : Option Word :=
  if inMemory (s.pc.toNat + 1) then some (wordOfBytes (s.readByte s.pc.toNat) (s.readByte (s.pc.toNat + 1)))
  else none

/-- A word stored where the next fetch reads it; nothing is stored where no fetch can read. -/
def State.storeFetchWord (s : State) (op : Word) : State :=
  if inMemory (s.pc.toNat + 1) then s.writeBytes s.pc.toNat [highByte op, lowByte op] else s

/-- What every fault-free step does before its instruction executes: PC <- PC + 2 (R91) and current_instruction <- the
fields of the word fetched (R92). -/
def State.stage (s : State) (op : Word) : State := { s with pc := s.pc + 2, cur := fieldsOf op }

/-- Fault entry (R216), from the state at the START of the step, so that every write of the faulting step is discarded
and PC is the address of the instruction (R215). -/
def State.raise (s : State) (kind : FaultKind) (op : Word) : State :=
  { s with runState := .halted, fault := some ⟨kind, s.pc, op⟩ }

/-- skip_if (R101): the staged PC advances by another 2. -/
def State.skipIf (s : State) (cond : Bool) : State := if cond then s.setPc (s.pc + 2) else s

/-! ### The return stack (R27) -/

/-- stack.push: no state when SP = 12. -/
def State.push (s : State) (w : Word) : Option State :=
  if h : s.sp.val < 12 then some { s with stack := s.stack.set s.sp.val w h, sp := ⟨s.sp.val + 1, by omega⟩ }
  else none

/-- stack.pop: the popped address and the state after it, whose slot is not cleared (R28); none when SP = 0. -/
def State.pop (s : State) : Option (Word × State) :=
  if 0 < s.sp.val then
    some (s.stack[s.sp.val - 1]'(by omega), { s with sp := ⟨s.sp.val - 1, by omega⟩ })
  else none

/-! ### Keys and random bytes -/

/-- keypad[k] (R31). -/
def State.keyDown (s : State) (k : Reg) : Bool := s.keypad[k.toNat]'k.isLt

/-- The key numbers in the order FX0A scans them (R193). -/
def keyOrder : List (BitVec 4) := [0, 1, 2, 3, 4, 5, 6, 7, 8, 9, 10, 11, 12, 13, 14, 15]

/-- The lowest-numbered key that is pressed (R193). -/
def State.lowestKeyDown (s : State) : Option (BitVec 4) := keyOrder.find? s.keyDown

/-- draw rand_byte (R8, R136): the oracle's next byte, and the state with that draw consumed. -/
def State.drawRandom (s : State) : Byte × State :=
  (Config.rngByte s.rngDraws, { s with rngDraws := s.rngDraws + 1 })

end Sys2Proof.Machine
end

