-- ==== Sys2Proof/Machine/ControlFlow.lean ====
section
/-! DEFINITION. The meanings of 00EE, 1NNN, 2NNN, 3XNN, 4XNN, 5XY0, 9XY0 and BNNN (spec 41_control_flow.md). A meaning
takes the state at the start of the step, PC at the instruction's address; it stages PC and current_instruction itself
(R91, R92), so that a fault of it discards that too (R215). The staged word is the instruction's encoding. -/

namespace Sys2Proof.Machine

open Sys2Proof

/-- What every meaning answers. -/
abbrev Result := Host.Outcome State Fault Refusal

/-- 00EE (R102). -/
def execRet (s : State) : Result :=
  match (s.stage (encode .ret)).pop with
  | some (t, s1) => .next (s1.setPc t)
  | none => .next (s.raise .stackUnderflow (encode .ret))

/-- 1NNN (R103). -/
def execJp (nnn : Addr) (s : State) : Result :=
  .next ((s.stage (encode (.jp nnn))).setPc (zextAddr nnn))

/-- 2NNN (R104): the pushed address is the staged PC. -/
def execCall (nnn : Addr) (s : State) : Result :=
  let s1 := s.stage (encode (.call nnn))
  match s1.push s1.pc with
  | some s2 => .next (s2.setPc (zextAddr nnn))
  | none => .next (s.raise .stackOverflow (encode (.call nnn)))

/-- 3XNN (R105). -/
def execSeByte (x : Reg) (nn : Byte) (s : State) : Result :=
  .next ((s.stage (encode (.seByte x nn))).skipIf (decide (s.getV x = nn)))

/-- 4XNN (R106). -/
def execSneByte (x : Reg) (nn : Byte) (s : State) : Result :=
  .next ((s.stage (encode (.sneByte x nn))).skipIf (decide (s.getV x ≠ nn)))

/-- 5XY0 (R107). -/
def execSeReg (x y : Reg) (s : State) : Result :=
  .next ((s.stage (encode (.seReg x y))).skipIf (decide (s.getV x = s.getV y)))

/-- 9XY0 (R108). -/
def execSneReg (x y : Reg) (s : State) : Result :=
  .next ((s.stage (encode (.sneReg x y))).skipIf (decide (s.getV x ≠ s.getV y)))

/-- BNNN (R109): the register is always V[0]. -/
def execJpV0 (nnn : Addr) (s : State) : Result :=
  .next ((s.stage (encode (.jpV0 nnn))).setPc (zextByte (s.getV 0) + zextAddr nnn))

end Sys2Proof.Machine
end

