-- ==== Sys2Proof/Machine/Alu.lean ====
section
/-! DEFINITION. The meanings of 6XNN, 7XNN, 8XY0..8XY7, 8XYE and CXNN (spec 42_alu.md). -/

namespace Sys2Proof.Machine

open Sys2Proof

/-- 6XNN (R122). -/
def execLdByte (x : Reg) (nn : Byte) (s : State) : Result :=
  .next ((s.stage (encode (.ldByte x nn))).setV x nn)

/-- 7XNN (R123): modulo 256, no flag. -/
def execAddByte (x : Reg) (nn : Byte) (s : State) : Result :=
  .next ((s.stage (encode (.addByte x nn))).setV x (s.getV x + nn))

/-- 8XY0 (R124). -/
def execLdReg (x y : Reg) (s : State) : Result :=
  .next ((s.stage (encode (.ldReg x y))).setV x (s.getV y))

/-- 8XY1 (R125). -/
def execOrReg (x y : Reg) (s : State) : Result :=
  .next ((s.stage (encode (.orReg x y))).setV x (s.getV x ||| s.getV y))

/-- 8XY2 (R126). -/
def execAndReg (x y : Reg) (s : State) : Result :=
  .next ((s.stage (encode (.andReg x y))).setV x (s.getV x &&& s.getV y))

/-- 8XY3 (R127). -/
def execXorReg (x y : Reg) (s : State) : Result :=
  .next ((s.stage (encode (.xorReg x y))).setV x (s.getV x ^^^ s.getV y))

/-- 8XY4 (R128): the sum is formed before any write, under both values of ALU_ALIAS. -/
def execAddReg (x y : Reg) (s : State) : Result :=
  .next ((s.stage (encode (.addReg x y))).flagOp .snapshot carryFlag sumByte x y)

/-- 8XY5 (R129). -/
def execSubReg (x y : Reg) (s : State) : Result :=
  .next ((s.stage (encode (.subReg x y))).flagOp aluAlias noBorrowFlag (fun a b => a - b) x y)

/-- 8XY6 (R130): Y is not read. -/
def execShrReg (x y : Reg) (s : State) : Result :=
  .next ((s.stage (encode (.shrReg x y))).flagOp aluAlias (fun a _ => shiftRightFlag a) (fun a _ => a >>> 1) x x)

/-- 8XY7 (R131). -/
def execSubnReg (x y : Reg) (s : State) : Result :=
  .next ((s.stage (encode (.subnReg x y))).flagOp aluAlias (fun a b => noBorrowFlag b a) (fun a b => b - a) x y)

/-- 8XYE (R132): Y is not read. -/
def execShlReg (x y : Reg) (s : State) : Result :=
  .next ((s.stage (encode (.shlReg x y))).flagOp aluAlias (fun a _ => shiftLeftFlag a) (fun a _ => a <<< 1) x x)

/-- CXNN (R136): one draw per execution, whatever NN is. -/
def execRnd (x : Reg) (nn : Byte) (s : State) : Result :=
  let d := (s.stage (encode (.rnd x nn))).drawRandom
  .next (d.2.setV x (d.1 &&& nn))

end Sys2Proof.Machine
end

