-- ==== Sys2Proof/Machine/Display.lean ====
section
/-! DEFINITION. The framebuffer's cells (spec R22) and the draw-sprite unit with its collision detector: the loops of
R172 over rows and bits, with the clipping of R171 and R173. -/

namespace Sys2Proof.Machine

open Sys2Proof

/-- The framebuffer with every cell off (R170). -/
def Display.blank : Display := Vector.replicate 32 0

/-- The cell at column x, row y: display[y*64 + x] (R22). Outside the 64 by 32 cells it reads off. -/
def Display.pixel (d : Display) (x y : Nat) : Bool :=
  if h : y < 32 then d[y].getLsbD x else false

/-- The cell at column x, row y set to a value. -/
def Display.setPixel (d : Display) (x y : Nat) (b : Bool) : Display :=
  if h : y < 32 then
    d.set y (if b then d[y] ||| BitVec.twoPow 64 x else d[y] &&& ~~~(BitVec.twoPow 64 x))
  else d

/-- The 8 bits of a sprite row, most significant first: column c, from the left, takes bit 7 - c (R171, R172). -/
def spriteBits (b : Byte) : List Bool := (List.range 8).map (fun c => b.getLsbD (7 - c))

/-- The loop over the bits of one sprite row: from column x of row y, on the display and the collision found so far. A
column past the right edge ends the row; a bit 1 over a cell that is on collides, tested before the XOR (R171, R172). -/
def drawBits (y : Nat) : Nat → List Bool → Display × Bool → Display × Bool
  | _, [], acc => acc
  | x, s :: bits, acc =>
    if 64 ≤ x then acc
    else
      let old := acc.1.pixel x y
      drawBits y (x + 1) bits (acc.1.setPixel x y (old ^^ s), acc.2 || (s && old))

/-- The loop over sprite rows: `n` rows are left, the next is drawn at row y from the byte at address a. The bottom-clip
test comes before the row's byte is read (R172, R173). -/
def drawRows (m : Memory) (x0 : Nat) : Nat → Nat → Nat → Display × Bool → Display × Bool
  | 0, _, _, acc => acc
  | n + 1, y, a, acc =>
    if 32 ≤ y then acc
    else drawRows m x0 n (y + 1) (a + 1) (drawBits y x0 (spriteBits (m.read a)) acc)

/-- The sprite's column origin: V[X] mod 64 (R171). -/
def State.originX (s : State) (x : Reg) : Nat := (s.getV x).toNat % 64

/-- The sprite's row origin: V[Y] mod 32 (R171). -/
def State.originY (s : State) (y : Reg) : Nat := (s.getV y).toNat % 32

/-- How many of N rows are drawn: min(N, 32 - y0) (R172). -/
def State.drawnRows (s : State) (y : Reg) (n : Nibble) : Nat := min n.toNat (32 - s.originY y)

/-- The addresses of the rows drawn are all cells of memory (R172). -/
def State.spriteInMemory (s : State) (y : Reg) (n : Nibble) : Bool :=
  decide (s.drawnRows y n = 0) || inMemory (s.i.toNat + s.drawnRows y n - 1)

/-- The display after a DXYN, and whether a drawn sprite bit met a cell that was on. -/
def State.drawSprite (s : State) (x y : Reg) (n : Nibble) : Display × Bool :=
  drawRows s.mem (s.originX x) n.toNat (s.originY y) s.i.toNat (s.display, false)

end Sys2Proof.Machine
end

