-- ==== Sys2Proof/Machine/DrawInstr.lean ====
section
/-! DEFINITION. The meanings of 00E0 and DXYN (spec 44_display.md). -/

namespace Sys2Proof.Machine

open Sys2Proof

/-- 00E0 (R170). -/
def execCls (s : State) : Result :=
  .next ((s.stage (encode .cls)).setDisplay Display.blank)

/-- DXYN (R172): the origin is read before VF is written; VF is written even when nothing is drawn. -/
def execDrw (x y : Reg) (n : Nibble) (s : State) : Result :=
  if s.spriteInMemory y n then
    let d := s.drawSprite x y n
    .next (((s.stage (encode (.drw x y n))).setDisplay d.1).setV VF (flagByte d.2))
  else .next (s.raise .dataOutOfRange (encode (.drw x y n)))

end Sys2Proof.Machine
end

