-- ==== Sys2Proof/Machine/IndexMemory.lean ====
section
/-! DEFINITION. The meanings of ANNN, FX1E, FX29, FX33, FX55 and FX65 (spec 43_index_memory.md). Every address of the
instruction is checked before any of its writes (R56); I is never modified by an access (R57). -/

namespace Sys2Proof.Machine

open Sys2Proof

/-- ANNN (R150). -/
def execLdI (nnn : Addr) (s : State) : Result :=
  .next ((s.stage (encode (.ldI nnn))).setI (zextAddr nnn))

/-- FX1E (R151): modulo 65536, no flag. -/
def execAddIVx (x : Reg) (s : State) : Result :=
  .next ((s.stage (encode (.addIVx x))).setI (s.i + zextByte (s.getV x)))

/-- FX29 (R152): the whole byte times 5. -/
def execLdFVx (x : Reg) (s : State) : Result :=
  .next ((s.stage (encode (.ldFVx x))).setI (zextByte (s.getV x) * 5))

/-- FX33 (R153, R154). -/
def execLdBVx (x : Reg) (s : State) : Result :=
  if inMemory (s.i.toNat + 2) then
    .next ((s.stage (encode (.ldBVx x))).writeBytes s.i.toNat (decimalDigits (s.getV x)))
  else .next (s.raise .dataOutOfRange (encode (.ldBVx x)))

/-- FX55 (R155). -/
def execStoreRegs (x : Reg) (s : State) : Result :=
  if inMemory (s.i.toNat + x.toNat) then
    .next ((s.stage (encode (.storeRegs x))).writeBytes s.i.toNat (s.firstRegs (x.toNat + 1)))
  else .next (s.raise .dataOutOfRange (encode (.storeRegs x)))

/-- FX65 (R156). -/
def execLoadRegs (x : Reg) (s : State) : Result :=
  if inMemory (s.i.toNat + x.toNat) then
    .next ((s.stage (encode (.loadRegs x))).setRegsFrom 0 (s.mem.readBytes s.i.toNat (x.toNat + 1)))
  else .next (s.raise .dataOutOfRange (encode (.loadRegs x)))

end Sys2Proof.Machine
end

