-- ==== Sys2Proof/Machine/Keypad.lean ====
section
/-! DEFINITION. The meanings of EX9E, EXA1 and FX0A (spec 45_keypad.md). -/

namespace Sys2Proof.Machine

open Sys2Proof

/-- The key that a register's whole byte names; none above 0x0F (R190). -/
def keyOfByte (b : Byte) : Option (BitVec 4) := if b.toNat ≤ 0xF then some (b.setWidth 4) else none

/-- EX9E (R191). -/
def execSkp (x : Reg) (s : State) : Result :=
  match keyOfByte (s.getV x) with
  | some k => .next ((s.stage (encode (.skp x))).skipIf (s.keyDown k))
  | none => .next (s.raise .keyIndexOutOfRange (encode (.skp x)))

/-- EXA1 (R192). -/
def execSknp (x : Reg) (s : State) : Result :=
  match keyOfByte (s.getV x) with
  | some k => .next ((s.stage (encode (.sknp x))).skipIf (!s.keyDown k))
  | none => .next (s.raise .keyIndexOutOfRange (encode (.sknp x)))

/-- FX0A (R193): with no key pressed the staged PC goes back by 2, to the instruction itself. -/
def execLdVxK (x : Reg) (s : State) : Result :=
  let s1 := s.stage (encode (.ldVxK x))
  match s.lowestKeyDown with
  | some k => .next (s1.setV x (k.setWidth 8))
  | none => .next (s1.setPc (s1.pc - 2))

end Sys2Proof.Machine
end

