-- ==== Sys2Proof/Machine/Timers.lean ====
section
/-! DEFINITION. The meanings of FX07, FX15 and FX18 (spec 46_timers.md). -/

namespace Sys2Proof.Machine

open Sys2Proof

/-- FX07 (R200). -/
def execLdVxDT (x : Reg) (s : State) : Result :=
  .next ((s.stage (encode (.ldVxDT x))).setV x s.delayTimer)

/-- FX15 (R201). -/
def execLdDTVx (x : Reg) (s : State) : Result :=
  .next ((s.stage (encode (.ldDTVx x))).setDelayTimer (s.getV x))

/-- FX18 (R202). -/
def execLdSTVx (x : Reg) (s : State) : Result :=
  .next ((s.stage (encode (.ldSTVx x))).setSoundTimer (s.getV x))

end Sys2Proof.Machine
end

