-- ==== Sys2Proof/Machine/Cycle.lean ====
section
/-! DEFINITION. The instruction cycle (spec 40_cycle.md): what a step of a Running machine does, and what a step does
otherwise. -/

namespace Sys2Proof.Machine

open Sys2Proof

/-- A step of a Running machine: the fetch (R91); an instruction by its meaning (R93), which stages PC and
current_instruction itself; a word outside the opcode map by the staging alone (R94); no word at all by the fault
FetchOutOfRange, which fetches none (R213). -/
def stepRunning (s : State) : Host.Outcome State Fault Refusal :=
  match s.fetchWord with
  | none => .next (s.raise .fetchOutOfRange 0x0000)
  | some op =>
    match decode op with
    | .instr i => exec i s
    | .noOp _ => .next (s.stage op)

/-- A step of a machine that is not Running: nothing changes (R90). -/
def stepHeld (s : State) : Host.Outcome State Fault Refusal := .next s

/-- A table word placed where the next step fetches, the run state made Running (R90; assumption 4). -/
def State.placeTableWord (s : State) (nbits w : Nat) : State :=
  { s.storeFetchWord (tableWord nbits w) with runState := .running }

end Sys2Proof.Machine
end

