-- ==== Sys2Proof/Machine/Step.lean ====
section
/-! DEFINITION. step(): one instruction if the run state is Running, else nothing (spec R90). -/

namespace Sys2Proof.Machine

open Sys2Proof

/-- step() (R90, R96). -/
def step (s : State) : Host.Outcome State Fault Refusal :=
  match s.runState with
  | .running => stepRunning s
  | .paused => stepHeld s
  | .halted => stepHeld s

/-- The state whose next step fetches and runs the given word (assumption 4). Where PC + 1 lies past memory no word can
be placed and none is. -/
def State.withFetchWord (s : State) (nbits w : Nat) : State := s.placeTableWord nbits w

end Sys2Proof.Machine
end

