-- ==== Sys2Proof/Machine/HostOps.lean ====
section
/-! DEFINITION. The host's side of the interface (spec R6): construct, tick_timers, set_key, pause and resume, the
outputs a host reads, the numeric codes, and a sequence of operations, a frame's among them (R240). No instruction
reaches these operations (R223). -/

namespace Sys2Proof.Machine

open Sys2Proof

/-- construct(image) (R250): the reset state with the image's bytes from 0x200 up, or ImageTooLarge and no Machine
(R251). -/
def construct (image : List Byte) : Host.Outcome State Fault Refusal :=
  if imageWellFormed image then .next (State.reset.writeBytes 0x200 image) else .fault .imageTooLarge

/-- One tick of a timer: a timer at 0 stays 0 (R230, R231). -/
def tickTimer (b : Byte) : Byte := if b = 0 then 0 else b - 1

/-- tick_timers() (R230), in every run state. -/
def State.tickTimers (s : State) : State :=
  { s with delayTimer := tickTimer s.delayTimer, soundTimer := tickTimer s.soundTimer }

/-- set_key(k, pressed) (R233), in every run state. -/
def State.setKey (s : State) (k : Fin 16) (pressed : Bool) : State :=
  { s with keypad := s.keypad.set k.val pressed }

/-- pause() (R236). -/
def State.pause (s : State) : State :=
  match s.runState with
  | .running => { s with runState := .paused }
  | .paused => s
  | .halted => s

/-- resume() (R236). -/
def State.resume (s : State) : State :=
  match s.runState with
  | .running => s
  | .paused => { s with runState := .running }
  | .halted => s

/-! ### Outputs (R6, R234, R235) -/

/-- The output display[k], k in 0..2047 (R22, R234). -/
def State.displayCell (s : State) (k : Nat) : Bool := s.display.pixel (k % 64) (k / 64)

/-- The output tone: the sound timer is not 0 (R235). -/
def State.tone (s : State) : Bool := decide (s.soundTimer ≠ 0)

/-- The numeric encoding of the run state (R33). -/
def RunState.code : RunState → Nat
  | .running => 0
  | .paused => 1
  | .halted => 2

/-- The numeric code of a fault kind (R210). -/
def FaultKind.code : FaultKind → Nat
  | .stackOverflow => 1
  | .stackUnderflow => 2
  | .fetchOutOfRange => 3
  | .dataOutOfRange => 4
  | .keyIndexOutOfRange => 5

/-- The numeric code of the fault record; 0 when there is none (R210). -/
def State.faultCode (s : State) : Nat :=
  match s.fault with
  | none => 0
  | some f => f.kind.code

/-- The numeric code of the construction result (R210, R218). -/
def Fault.code : Fault → Nat
  | .imageTooLarge => 6

/-! ### Sequences of operations (R6, R240) -/

/-- One operation. A new Machine continues the sequence of random bytes, for the oracle is no part of a Machine (R35,
R253). -/
def applyOp (op : HostOp) (s : State) : Host.Outcome State Fault Refusal :=
  match op with
  | .construct image =>
    match construct image with
    | .next t => .next { t with rngDraws := s.rngDraws }
    | .fault r => .fault r
    | .refused r => .refused r
  | .step => step s
  | .tickTimers => .next s.tickTimers
  | .setKey k pressed => if h : k < 16 then .next (s.setKey ⟨k, h⟩ pressed) else .refused .keyNumberOutOfRange
  | .pause => .next s.pause
  | .resume => .next s.resume

/-- Operations one after the other, up to the first that gives no state (R6). -/
def applyOps : List HostOp → State → Host.Outcome State Fault Refusal
  | [], s => .next s
  | op :: ops, s =>
    match applyOp op s with
    | .next t => applyOps ops t
    | .fault r => .fault r
    | .refused r => .refused r

/-- What a host presents for one frame: key edges and a number of steps (R240). -/
structure HostFrame where
  keys : List (Nat × Bool)
  steps : Nat
  deriving DecidableEq, Repr

/-- The operations of a frame in the order they take effect: key edges, steps, one tick (R240). -/
def HostFrame.ops (f : HostFrame) : List HostOp :=
  f.keys.map (fun k => HostOp.setKey k.1 k.2) ++ List.replicate f.steps .step ++ [.tickTimers]

/-- A frame applied to a Machine; the host's reads follow (R240). -/
def applyFrame (f : HostFrame) (s : State) : Host.Outcome State Fault Refusal := applyOps f.ops s

end Sys2Proof.Machine
end

