-- ==== Sys2Proof/Safety.lean ====
section
/-! DEFINITION. The terms that claims use: a safe run, the premises of the spec (R52, R97), what an instruction may change
(R24, R38), where PC goes (R95), when a step faults (R210), the bits of a sprite (R171, R172), and the invariant. -/

namespace Sys2Proof.Machine

open Sys2Proof

/-! ### Runs -/

/-- No fault has happened: the run state is not Halted (R216, R221). -/
def State.noFault (s : State) : Prop := s.runState ≠ .halted

/-- The instruction that the next step runs; none when the step holds, faults at its fetch or meets a no-op. -/
def State.nextInstr (s : State) : Option Instr :=
  match s.runState, s.fetchWord with
  | .running, some op =>
    match decode op with
    | .instr i => some i
    | .noOp _ => none
  | _, _ => none

/-- The premise NoReservedWrite for the next step (R52): it is no FX33 or FX55 that writes below 0x200. Both write from I
upward, so that is I at or above 0x200. -/
def State.noReservedWrite (s : State) : Prop :=
  ∀ x, s.nextInstr = some (.ldBVx x) ∨ s.nextInstr = some (.storeRegs x) → 0x200 ≤ s.i.toNat

/-- The end of a run by the convention of R97: Halted, or about to fetch a jump to its own address. -/
def State.atEnd (s : State) : Prop :=
  s.runState = .halted ∨ ∃ nnn, s.nextInstr = some (.jp nnn) ∧ zextAddr nnn = s.pc

/-- Fault entry and nothing else (R215, R216): `t` is `s` Halted, with the record of the kind, the address of the
instruction and its word. -/
def Faulted (kind : FaultKind) (op : Word) (s t : State) : Prop :=
  t = { s with runState := .halted, fault := some ⟨kind, s.pc, op⟩ }

/-! ### What an instruction may change -/

/-- The components of the Machine (R20) other than PC and current_instruction, which every step may write (R38); the
fault record goes with the run state and the cursor with the stack. -/
inductive Component where
  | memory
  | display
  | registers
  | index
  | stack
  | delayTimer
  | soundTimer
  | keypad
  | runState
  | random
  deriving DecidableEq, Repr

/-- A component is the same in two states; memory byte by byte. -/
def Component.Same : Component → State → State → Prop
  | .memory, s, t => ∀ a, t.readByte a = s.readByte a
  | .display, s, t => t.display = s.display
  | .registers, s, t => ∀ r, t.getV r = s.getV r
  | .index, s, t => t.i = s.i
  | .stack, s, t => t.stack = s.stack ∧ t.sp = s.sp
  | .delayTimer, s, t => t.delayTimer = s.delayTimer
  | .soundTimer, s, t => t.soundTimer = s.soundTimer
  | .keypad, s, t => t.keypad = s.keypad
  | .runState, s, t => t.runState = s.runState ∧ t.fault = s.fault
  | .random, s, t => t.rngDraws = s.rngDraws

/-- Every component but the ones listed is the same after as before. -/
def KeepsAllBut (changed : List Component) (s t : State) : Prop := ∀ c, c ∉ changed → c.Same s t

/-- Every general register but the ones listed holds the same after as before. -/
def KeepsRegsBut (changed : List Reg) (s t : State) : Prop := ∀ r, r ∉ changed → t.getV r = s.getV r

/-- PC and current_instruction after an instruction that only advances: R91, R92 and the first row of R95. -/
def Advances (i : Instr) (s t : State) : Prop := t.pc = s.pc + 2 ∧ t.cur = fieldsOf (encode i)

/-- The components an instruction may write (R38). A step that can fault may also write the run state. -/
def writableComponents : Instr → List Component
  | .cls => [.display]
  | .ret => [.stack, .runState]
  | .jp _ => []
  | .call _ => [.stack, .runState]
  | .seByte _ _ => []
  | .sneByte _ _ => []
  | .seReg _ _ => []
  | .ldByte _ _ => [.registers]
  | .addByte _ _ => [.registers]
  | .ldReg _ _ => [.registers]
  | .orReg _ _ => [.registers]
  | .andReg _ _ => [.registers]
  | .xorReg _ _ => [.registers]
  | .addReg _ _ => [.registers]
  | .subReg _ _ => [.registers]
  | .shrReg _ _ => [.registers]
  | .subnReg _ _ => [.registers]
  | .shlReg _ _ => [.registers]
  | .sneReg _ _ => []
  | .ldI _ => [.index]
  | .jpV0 _ => []
  | .rnd _ _ => [.registers, .random]
  | .drw _ _ _ => [.display, .registers, .runState]
  | .skp _ => [.runState]
  | .sknp _ => [.runState]
  | .ldVxDT _ => [.registers]
  | .ldVxK _ => [.registers]
  | .ldDTVx _ => [.delayTimer]
  | .ldSTVx _ => [.soundTimer]
  | .addIVx _ => [.index]
  | .ldFVx _ => [.index]
  | .ldBVx _ => [.memory, .runState]
  | .storeRegs _ => [.memory, .runState]
  | .loadRegs _ => [.registers, .runState]

/-- The general registers an instruction may write (R24, R38): its destination, and VF where the spec says the
instruction writes it whatever its X field. -/
def mayWriteReg : Instr → Reg → Bool
  | .ldByte x _, r => r = x
  | .addByte x _, r => r = x
  | .ldReg x _, r => r = x
  | .orReg x _, r => r = x
  | .andReg x _, r => r = x
  | .xorReg x _, r => r = x
  | .addReg x _, r => r = x || r = VF
  | .subReg x _, r => r = x || r = VF
  | .shrReg x _, r => r = x || r = VF
  | .subnReg x _, r => r = x || r = VF
  | .shlReg x _, r => r = x || r = VF
  | .rnd x _, r => r = x
  | .drw _ _ _, r => r = VF
  | .ldVxDT x, r => r = x
  | .ldVxK x, r => r = x
  | .loadRegs x, r => r.toNat ≤ x.toNat
  | _, _ => false

/-! ### Faults and PC, as the spec tabulates them -/

/-- The fault an instruction raises, if any (R210). -/
def faultOf (i : Instr) (s : State) : Option FaultKind :=
  match i with
  | .call _ => if s.sp.val = 12 then some .stackOverflow else none
  | .ret => if s.sp.val = 0 then some .stackUnderflow else none
  | .drw _ y n =>
    let rows := min n.toNat (32 - (s.getV y).toNat % 32)
    if 0 < rows ∧ 0x1000 ≤ s.i.toNat + rows - 1 then some .dataOutOfRange else none
  | .ldBVx _ => if 0x1000 ≤ s.i.toNat + 2 then some .dataOutOfRange else none
  | .storeRegs x => if 0x1000 ≤ s.i.toNat + x.toNat then some .dataOutOfRange else none
  | .loadRegs x => if 0x1000 ≤ s.i.toNat + x.toNat then some .dataOutOfRange else none
  | .skp x => if 0x0F < (s.getV x).toNat then some .keyIndexOutOfRange else none
  | .sknp x => if 0x0F < (s.getV x).toNat then some .keyIndexOutOfRange else none
  | _ => none

/-- The entry a return pops: slot[SP - 1] (R27). -/
def State.topOfStack (s : State) : Word := s.stack.toList.getD (s.sp.val - 1) 0

/-- keypad[V[x]], for V[x] at most 15 (R190, R191). -/
def State.keyOfReg (s : State) (x : Reg) : Bool := s.keypad.toList.getD (s.getV x).toNat false

/-- PC after an instruction that does not fault (the rows of R95). -/
def pcAfter (i : Instr) (s : State) : Word :=
  match i with
  | .seByte x nn => if s.getV x = nn then s.pc + 4 else s.pc + 2
  | .sneByte x nn => if s.getV x ≠ nn then s.pc + 4 else s.pc + 2
  | .seReg x y => if s.getV x = s.getV y then s.pc + 4 else s.pc + 2
  | .sneReg x y => if s.getV x ≠ s.getV y then s.pc + 4 else s.pc + 2
  | .skp x => if s.keyOfReg x = true then s.pc + 4 else s.pc + 2
  | .sknp x => if s.keyOfReg x = false then s.pc + 4 else s.pc + 2
  | .jp nnn => nnn.setWidth 16
  | .call nnn => nnn.setWidth 16
  | .ret => s.topOfStack
  | .jpV0 nnn => (s.getV 0).setWidth 16 + nnn.setWidth 16
  | .ldVxK _ => if s.keypad.toList.any id then s.pc + 2 else s.pc
  | _ => s.pc + 2

/-! ### Sprites -/

/-- The sprite bit over the cell (x, y) when the rows from address a are drawn at the origin (x0, y0), n of them: bit
7 - (x - x0) of the byte at a + (y - y0); off outside the sprite (R171, R172). -/
def spriteBitAt (m : Memory) (x0 y0 a n x y : Nat) : Bool :=
  if x0 ≤ x ∧ x < x0 + 8 ∧ y0 ≤ y ∧ y < y0 + n then (m.read (a + (y - y0))).getLsbD (7 - (x - x0)) else false

/-- The sprite bit that a DXYN at `s` draws over the cell (px, py). -/
def State.spriteBit (s : State) (x y : Reg) (n : Nibble) (px py : Nat) : Bool :=
  spriteBitAt s.mem (s.originX x) (s.originY y) s.i.toNat (s.drawnRows y n) px py

/-! ### The invariant -/

/-- What holds of every Machine that construct builds, after every operation. -/
structure State.Inv (s : State) : Prop where
  /-- Memory is in its canonical form. -/
  memory : s.mem.wf = true
  /-- current_instruction holds the fields of its opcode (R32, R71). -/
  current : s.cur = fieldsOf s.cur.opcode
  /-- Halted exactly when a fault is recorded (R34, R216, R221). -/
  halted : s.runState = .halted ↔ s.fault.isSome = true
  /-- A recorded fault names the instruction at PC: its address, and the word there, 0 where none can be fetched, which
  is exactly the kind FetchOutOfRange (R34, R215, R216). -/
  record : ∀ f, s.fault = some f →
    f.addr = s.pc ∧ f.opcode = s.fetchWord.getD 0 ∧ (f.kind = .fetchOutOfRange ↔ s.fetchWord = none)
  /-- PC never wraps: its highest value is that of BNNN (R9, R109). -/
  pcBound : s.pc.toNat ≤ 0x10FE
  /-- Every address on the stack lies in 0x0002..0x1000 (R102). -/
  returns : ∀ k, k < s.sp.val → 0x2 ≤ (s.stack.toList.getD k 0).toNat ∧ (s.stack.toList.getD k 0).toNat ≤ 0x1000

end Sys2Proof.Machine
end

