-- ==== Sys2Proof/Certificates/Slice0/Obligations.lean ====
section
/-! DEFINITION. The statements for the provers, from the numbered rules of the spec. A statement about a meaning holds for
every state: PC is the address of the instruction, and the next state is the whole step's. Where a rule marks a clause as the
spec's own decision (D<n>, 92_eei_decisions.md) or its own inference, the docstring names it, and a choice of the model's is
named by its log entry. -/

open Sys2Proof Sys2Proof.Machine

/-! ### Encoding and decoding -/

/-- Every instruction, with every operand, is decoded from its own word (R71 to R75). -/
def Obligations.DecodeGivesBackTheEncoded : Prop :=
  ∀ i : Instr, decode (encode i) = .instr i

/-- Every word that decodes to an instruction is that instruction's own word: no bit of it is dropped (R71, R75). -/
def Obligations.EncodeGivesBackTheDecoded : Prop :=
  ∀ (op : Word) (i : Instr), decode op = .instr i → encode i = op

/-- R74: the instruction of a word is that of the row with op & mask = match, and at most one row matches any word. -/
def Obligations.OpcodeMapSelectsOneRow : Prop :=
  (∀ (op : Word) (i : Instr),
    decode op = .instr i ↔ ∃ r ∈ opcodeTable, op &&& r.mask = r.pattern ∧ i = r.build op) ∧
  (∀ (op : Word) (j k : Nat) (hj : j < opcodeTable.length) (hk : k < opcodeTable.length),
    op &&& opcodeTable[j].mask = opcodeTable[j].pattern → op &&& opcodeTable[k].mask = opcodeTable[k].pattern → j = k)

/-- The no-op space of R76, list item by list item; every other word is an instruction. -/
def Obligations.NoOpSpaceIsTheListOfSix : Prop :=
  ∀ op : Word, (∃ space, decode op = .noOp space) ↔
    ((fieldT op = 0x0 ∧ op ≠ 0x00E0 ∧ op ≠ 0x00EE) ∨
     (fieldT op = 0x5 ∧ fieldN op ≠ 0x0) ∨
     (fieldT op = 0x8 ∧ fieldN op ∈ [0x8#4, 0x9#4, 0xA#4, 0xB#4, 0xC#4, 0xD#4, 0xF#4]) ∨
     (fieldT op = 0x9 ∧ fieldN op ≠ 0x0) ∨
     (fieldT op = 0xE ∧ fieldNN op ∉ [0x9E#8, 0xA1#8]) ∨
     (fieldT op = 0xF ∧
       fieldNN op ∉ [0x07#8, 0x0A#8, 0x15#8, 0x18#8, 0x1E#8, 0x29#8, 0x33#8, 0x55#8, 0x65#8]))

/-- Words written out bit by bit from the layouts of R73 and R75, one or more of each family, and three no-op words. -/
def Obligations.WrittenOutWordsDecode : Prop :=
  decode 0b0000000011100000 = .instr .cls ∧
  decode 0b0010001100000000 = .instr (.call 0x300) ∧
  decode 0b0101000100100000 = .instr (.seReg 1 2) ∧
  decode 0b0111101001000010 = .instr (.addByte 0xA 0x42) ∧
  decode 0b1000000100100111 = .instr (.subnReg 1 2) ∧
  decode 0b1100001100001111 = .instr (.rnd 3 0x0F) ∧
  decode 0b1101000100100101 = .instr (.drw 1 2 5) ∧
  decode 0b1110010110100001 = .instr (.sknp 5) ∧
  decode 0b1111001001100101 = .instr (.loadRegs 2) ∧
  decode 0b1111000100011000 = .instr (.ldSTVx 1) ∧
  decode 0b0000000111100000 = .noOp .family0 ∧
  decode 0b0101000100100001 = .noOp .family5 ∧
  decode 0b1111000011111111 = .noOp .familyF

/-! ### The step -/

/-- A Running machine whose two bytes at PC decode to an instruction steps by that instruction's meaning (R91 to R93).
-/
def Obligations.StepRunsTheDecodedInstruction : Prop :=
  ∀ (s : State) (i : Instr), s.runState = .running → s.pc.toNat + 1 < 0x1000 →
    decode (wordOfBytes (s.readByte s.pc.toNat) (s.readByte (s.pc.toNat + 1))) = .instr i → step s = exec i s

/-- R94: a word that matches no pattern only advances PC by 2 and is recorded in current_instruction. -/
def Obligations.NoOpWordOnlyStages : Prop :=
  ∀ (s : State) (op : Word), s.runState = .running → s.fetchWord = some op →
    (∀ r ∈ opcodeTable, op &&& r.mask ≠ r.pattern) →
    step s = .next { s with pc := s.pc + 2, cur := fieldsOf op }

/-- R90, the spec's own decision D7: a Paused or Halted machine is not changed by a step. -/
def Obligations.StepHoldsUnlessRunning : Prop :=
  ∀ s : State, s.runState ≠ .running → step s = .next s

/-- R213, the spec's own decision D3: with PC + 1 at or past 0x1000 a step of a Running machine faults, recording PC and
the word 0x0000. -/
def Obligations.FetchPastMemoryFaults : Prop :=
  ∀ s : State, s.runState = .running → 0x1000 ≤ s.pc.toNat + 1 →
    ∃ t, step s = .next t ∧ Faulted .fetchOutOfRange 0x0000 s t

/-- R215 and R216, the spec's own decision D8: a step that takes a Running machine to Halted changes the run state and
the fault record alone, and the record names the instruction's address and the word fetched there, 0x0000 when none was.
-/
def Obligations.FaultsArePrecise : Prop :=
  ∀ s t : State, s.runState = .running → step s = .next t → t.runState = .halted →
    ∃ kind, Faulted kind (s.fetchWord.getD 0x0000) s t

/-- The fault table R210 (its codes 3 to 5 the spec's own, D3 and D5) and the priority R220: a step of a Running machine
that fetches an instruction faults exactly on the instruction's own condition, with its kind. -/
def Obligations.StepFaultsExactlyAsTabled : Prop :=
  ∀ (s : State) (op : Word) (i : Instr), s.runState = .running → s.fetchWord = some op → decode op = .instr i →
    ∃ t, step s = .next t ∧
      (∀ kind, faultOf i s = some kind → Faulted kind op s t) ∧
      (faultOf i s = none → t.runState = .running ∧ t.fault = s.fault)

/-- R221, the spec's own decision D8: no step, pause, resume, tick or key change leaves Halted, and a step and a resume
there change nothing. -/
def Obligations.HaltedIsTerminal : Prop :=
  ∀ s : State, s.runState = .halted →
    step s = .next s ∧ s.resume = s ∧ s.pause = s ∧ s.tickTimers.runState = .halted ∧
      ∀ k pressed, (s.setKey k pressed).runState = .halted

/-- The table R95 of PC after a step, row by row; the spec marks it as derived from its rules. -/
def Obligations.ProgramCounterAfterStep : Prop :=
  ∀ s : State,
    (s.runState ≠ .running → ∃ t, step s = .next t ∧ t.pc = s.pc) ∧
    (s.runState = .running → s.fetchWord = none → ∃ t, step s = .next t ∧ t.pc = s.pc) ∧
    (∀ op space, s.runState = .running → s.fetchWord = some op → decode op = .noOp space →
      ∃ t, step s = .next t ∧ t.pc = s.pc + 2) ∧
    (∀ op i, s.runState = .running → s.fetchWord = some op → decode op = .instr i →
      ∃ t, step s = .next t ∧ t.pc = if (faultOf i s).isSome then s.pc else pcAfter i s)

/-- A step always runs to completion: from every state it answers a next state (R96). -/
def Obligations.StepAlwaysAnswersNext : Prop :=
  ∀ s : State, ∃ t, step s = .next t

/-- R92 and R71: after a step of a Running machine that does not fault, current_instruction is the word fetched and the
six fields sliced from it. -/
def Obligations.CurrentInstructionRecordsTheFetch : Prop :=
  ∀ (s t : State) (op : Word), s.runState = .running → s.fetchWord = some op → step s = .next t →
    t.runState = .running →
    t.cur.opcode = op ∧ t.cur.nnn = op.extractLsb' 0 12 ∧ t.cur.nn = op.extractLsb' 0 8 ∧
      t.cur.n = op.extractLsb' 0 4 ∧ t.cur.x = op.extractLsb' 8 4 ∧ t.cur.y = op.extractLsb' 4 4

/-! ### Invariants and frames of every instruction -/

/-- Every step keeps the invariant: canonical memory, Halted exactly with a fault record that names the instruction at
PC, PC at most 0x10FE, return addresses in 0x0002..0x1000, current_instruction the fields of its opcode. That memory is
a list with a canonical form is the model's choice (log entry 17, DESIGN CHOICE); the clauses on Halted and on the
record are the spec's own decisions D8 and D9; the range of return addresses is R102's own derivation from R104. -/
def Obligations.StepKeepsInvariant : Prop :=
  ∀ s t : State, s.Inv → step s = .next t → t.Inv

/-- The invariant holds right after reset. Its clause of canonical memory is the model's choice (log entry 17, DESIGN
CHOICE), as is the empty list that State.reset holds; the absent fault record and current_instruction of 0 are the
spec's own decisions D9 and D11. -/
def Obligations.ResetMeetsInvariant : Prop := State.reset.Inv

/-- Every other operation of the interface keeps the invariant, and a Machine that construct builds meets it. Its clause
of canonical memory is the model's choice (log entry 17, DESIGN CHOICE); that tick_timers and set_key act in every run
state, and that pause and resume are ignored outside their transitions, are the spec's own decisions D13, D22 and D21,
and what construct leaves in fault and current_instruction is D9 and D11. -/
def Obligations.HostOperationsKeepInvariant : Prop :=
  (∀ image m, construct image = .next m → m.Inv) ∧
  (∀ s : State, s.Inv → s.tickTimers.Inv ∧ s.pause.Inv ∧ s.resume.Inv ∧ ∀ k pressed, (s.setKey k pressed).Inv)

/-- R38 and R24: an instruction writes no component outside its row of R38, and no general register but its destination
and, where R24 lists the instruction, VF. -/
def Obligations.EveryInstructionKeepsItsFrame : Prop :=
  ∀ (i : Instr) (s t : State), exec i s = .next t →
    KeepsAllBut (writableComponents i) s t ∧ ∀ r, mayWriteReg i r = false → t.getV r = s.getV r

/-- R52, the spec's own decision D2: under the premise NoReservedWrite a step leaves every byte below 0x200 as it was,
the font among them. -/
def Obligations.ReservedBytesKeptUnderThePremise : Prop :=
  ∀ s t : State, s.noReservedWrite → step s = .next t → ∀ a, a < 0x200 → t.readByte a = s.readByte a

/-! ### Control flow -/

/-- R102 and R212: with SP above 0, 00EE pops the top entry into PC and keeps the slots; with SP 0 it faults and records
its address and word. -/
def Obligations.ReturnPopsIntoPc : Prop :=
  ∀ s : State,
    (0 < s.sp.val →
      ∃ t, exec .ret s = .next t ∧ t.pc = s.stack.toList.getD (s.sp.val - 1) 0 ∧ t.sp.val = s.sp.val - 1 ∧
        t.stack = s.stack ∧ t.cur = fieldsOf (encode .ret) ∧ KeepsAllBut [.stack] s t) ∧
    (s.sp.val = 0 → ∃ t, exec .ret s = .next t ∧ Faulted .stackUnderflow (encode .ret) s t)

/-- R104 and R211: with SP below 12, 2NNN pushes the address after it and jumps, and the other slots are kept; with SP
12 it faults and records its address and word. -/
def Obligations.CallPushesTheNextAddress : Prop :=
  ∀ (nnn : Addr) (s : State),
    (s.sp.val < 12 →
      ∃ t, exec (.call nnn) s = .next t ∧ t.pc = nnn.setWidth 16 ∧ t.sp.val = s.sp.val + 1 ∧
        t.stack.toList.getD s.sp.val 0 = s.pc + 2 ∧
        (∀ k, k < 12 → k ≠ s.sp.val → t.stack.toList.getD k 0 = s.stack.toList.getD k 0) ∧
        t.cur = fieldsOf (encode (.call nnn)) ∧ KeepsAllBut [.stack] s t) ∧
    (s.sp.val = 12 → ∃ t, exec (.call nnn) s = .next t ∧ Faulted .stackOverflow (encode (.call nnn)) s t)

/-- A return right after a call comes back to the word after the call, with the stack as deep as before (R100, R256). -/
def Obligations.CallThenReturnComesBack : Prop :=
  ∀ (nnn : Addr) (s : State), s.sp.val < 12 →
    ∃ t u, exec (.call nnn) s = .next t ∧ exec .ret t = .next u ∧ u.pc = s.pc + 2 ∧ u.sp = s.sp

/-- R103 and R109: 1NNN jumps to NNN, BNNN to V[0] + NNN, whatever NNN is. -/
def Obligations.JumpsSetPc : Prop :=
  ∀ (nnn : Addr) (s : State),
    (∃ t, exec (.jp nnn) s = .next t ∧ t.pc.toNat = nnn.toNat ∧ t.cur = fieldsOf (encode (.jp nnn)) ∧
      KeepsAllBut [] s t) ∧
    (∃ t, exec (.jpV0 nnn) s = .next t ∧ t.pc.toNat = (s.getV 0).toNat + nnn.toNat ∧
      t.cur = fieldsOf (encode (.jpV0 nnn)) ∧ KeepsAllBut [] s t)

/-- R105 and R106: 3XNN skips if V[X] = NN, 4XNN if not; nothing else changes. -/
def Obligations.SkipsCompareWithTheByte : Prop :=
  ∀ (x : Reg) (nn : Byte) (s : State),
    (∃ t, exec (.seByte x nn) s = .next t ∧ t.pc = (if s.getV x = nn then s.pc + 4 else s.pc + 2) ∧
      t.cur = fieldsOf (encode (.seByte x nn)) ∧ KeepsAllBut [] s t) ∧
    (∃ t, exec (.sneByte x nn) s = .next t ∧ t.pc = (if s.getV x = nn then s.pc + 2 else s.pc + 4) ∧
      t.cur = fieldsOf (encode (.sneByte x nn)) ∧ KeepsAllBut [] s t)

/-- R107 and R108: 5XY0 skips if V[X] = V[Y], 9XY0 if not; nothing else changes. -/
def Obligations.SkipsCompareRegisters : Prop :=
  ∀ (x y : Reg) (s : State),
    (∃ t, exec (.seReg x y) s = .next t ∧ t.pc = (if s.getV x = s.getV y then s.pc + 4 else s.pc + 2) ∧
      t.cur = fieldsOf (encode (.seReg x y)) ∧ KeepsAllBut [] s t) ∧
    (∃ t, exec (.sneReg x y) s = .next t ∧ t.pc = (if s.getV x = s.getV y then s.pc + 2 else s.pc + 4) ∧
      t.cur = fieldsOf (encode (.sneReg x y)) ∧ KeepsAllBut [] s t)

/-! ### Register file and ALU -/

/-- R122, R123 and R124: 6XNN loads NN, 7XNN adds it modulo 256, 8XY0 copies V[Y]; no other register changes, VF
included. -/
def Obligations.LoadAddImmediateAndCopy : Prop :=
  ∀ (x y : Reg) (nn : Byte) (s : State),
    (∃ t, exec (.ldByte x nn) s = .next t ∧ t.getV x = nn ∧ KeepsRegsBut [x] s t ∧ Advances (.ldByte x nn) s t ∧
      KeepsAllBut [.registers] s t) ∧
    (∃ t, exec (.addByte x nn) s = .next t ∧ (t.getV x).toNat = ((s.getV x).toNat + nn.toNat) % 256 ∧
      KeepsRegsBut [x] s t ∧ Advances (.addByte x nn) s t ∧ KeepsAllBut [.registers] s t) ∧
    (∃ t, exec (.ldReg x y) s = .next t ∧ t.getV x = s.getV y ∧ KeepsRegsBut [x] s t ∧
      Advances (.ldReg x y) s t ∧ KeepsAllBut [.registers] s t)

/-- R125 to R127: or, and, exclusive or. That VF is not written unless X = F is the spec's own decision D27. -/
def Obligations.LogicLeavesVF : Prop :=
  ∀ (x y : Reg) (s : State),
    (∃ t, exec (.orReg x y) s = .next t ∧ t.getV x = s.getV x ||| s.getV y ∧ KeepsRegsBut [x] s t ∧
      Advances (.orReg x y) s t ∧ KeepsAllBut [.registers] s t) ∧
    (∃ t, exec (.andReg x y) s = .next t ∧ t.getV x = s.getV x &&& s.getV y ∧ KeepsRegsBut [x] s t ∧
      Advances (.andReg x y) s t ∧ KeepsAllBut [.registers] s t) ∧
    (∃ t, exec (.xorReg x y) s = .next t ∧ t.getV x = s.getV x ^^^ s.getV y ∧ KeepsRegsBut [x] s t ∧
      Advances (.xorReg x y) s t ∧ KeepsAllBut [.registers] s t)

/-- R128 and its row of R135: 8XY4 leaves V[X] the sum modulo 256 for every X and Y, and VF the carry unless X = F. -/
def Obligations.AddSetsCarry : Prop :=
  ∀ (x y : Reg) (s : State),
    ∃ t, exec (.addReg x y) s = .next t ∧
      (t.getV x).toNat = ((s.getV x).toNat + (s.getV y).toNat) % 256 ∧
      (x ≠ VF → t.getV VF = if 255 < (s.getV x).toNat + (s.getV y).toNat then 1 else 0) ∧
      KeepsRegsBut [x, VF] s t ∧ Advances (.addReg x y) s t ∧ KeepsAllBut [.registers] s t

/-- R129 under `sequential`, the spec's own decision D6, and its row of R135: with f the no-borrow flag of the operands
before, V[X] and VF for each of the four ways X and Y can name VF. -/
def Obligations.SubtractSetsNoBorrow : Prop :=
  ∀ (x y : Reg) (s : State),
    ∃ t f, exec (.subReg x y) s = .next t ∧ f = (if (s.getV y).toNat ≤ (s.getV x).toNat then 1 else 0) ∧
      (x ≠ VF ∧ y ≠ VF → t.getV x = s.getV x - s.getV y ∧ t.getV VF = f) ∧
      (x ≠ VF ∧ y = VF → t.getV x = s.getV x - f ∧ t.getV VF = f) ∧
      (x = VF ∧ y ≠ VF → t.getV VF = f - s.getV y) ∧
      (x = VF ∧ y = VF → t.getV VF = 0) ∧
      KeepsRegsBut [x, VF] s t ∧ Advances (.subReg x y) s t ∧ KeepsAllBut [.registers] s t

/-- R131 under `sequential`, the spec's own decision D6, and its row of R135. -/
def Obligations.ReverseSubtractSetsNoBorrow : Prop :=
  ∀ (x y : Reg) (s : State),
    ∃ t f, exec (.subnReg x y) s = .next t ∧ f = (if (s.getV x).toNat ≤ (s.getV y).toNat then 1 else 0) ∧
      (x ≠ VF ∧ y ≠ VF → t.getV x = s.getV y - s.getV x ∧ t.getV VF = f) ∧
      (x ≠ VF ∧ y = VF → t.getV x = f - s.getV x ∧ t.getV VF = f) ∧
      (x = VF ∧ y ≠ VF → t.getV VF = s.getV y - f) ∧
      (x = VF ∧ y = VF → t.getV VF = 0) ∧
      KeepsRegsBut [x, VF] s t ∧ Advances (.subnReg x y) s t ∧ KeepsAllBut [.registers] s t

/-- R130 and R132 under `sequential`, the spec's own decision D6, and their rows of R135: the bit shifted out goes to
VF, V[Y] has no effect, and with X = F the flag itself is shifted. -/
def Obligations.ShiftsMoveABitIntoVF : Prop :=
  ∀ (x y : Reg) (s : State),
    (∃ t, exec (.shrReg x y) s = .next t ∧
      (x ≠ VF → (t.getV x).toNat = (s.getV x).toNat / 2 ∧ (t.getV VF).toNat = (s.getV x).toNat % 2) ∧
      (x = VF → t.getV VF = 0) ∧
      KeepsRegsBut [x, VF] s t ∧ Advances (.shrReg x y) s t ∧ KeepsAllBut [.registers] s t) ∧
    (∃ t, exec (.shlReg x y) s = .next t ∧
      (x ≠ VF → (t.getV x).toNat = 2 * (s.getV x).toNat % 256 ∧ (t.getV VF).toNat = (s.getV x).toNat / 128) ∧
      (x = VF → (t.getV VF).toNat = 2 * ((s.getV VF).toNat / 128)) ∧
      KeepsRegsBut [x, VF] s t ∧ Advances (.shlReg x y) s t ∧ KeepsAllBut [.registers] s t)

/-- R120 (the two readings are the spec's own decision D6): for every flag-setting operation the two readings of
ALU_ALIAS agree whenever X and Y are not F, and under both the last write is that of V[X]. -/
def Obligations.AliasReadingsAgreeOffVF : Prop :=
  ∀ (flag : Byte → Byte → Bool) (result : Byte → Byte → Byte) (x y : Reg) (s : State),
    (x ≠ VF → y ≠ VF →
      State.flagOp .sequential flag result x y s = State.flagOp .snapshot flag result x y s) ∧
    (∀ mode, ∃ b, State.flagOp mode flag result x y s =
      (s.setV VF (flagByte (flag (s.getV x) (s.getV y)))).setV x b)

/-- R135, the columns `snapshot`, an alternative this hardware does not take (D6): with every operand read before any
write, V[X] is the result of the operands before whatever X and Y are. -/
def Obligations.SnapshotReadingUsesOldOperands : Prop :=
  ∀ (flag : Byte → Byte → Bool) (result : Byte → Byte → Byte) (x y : Reg) (s : State),
    (State.flagOp .snapshot flag result x y s).getV x = result (s.getV x) (s.getV y) ∧
    (x ≠ VF → (State.flagOp .snapshot flag result x y s).getV VF = flagByte (flag (s.getV x) (s.getV y)))

/-- R136: V[X] is the draw masked by NN, exactly one draw is consumed, and nothing is assumed of the draw. That draws
are numbered by a counter in State is the model's choice (log entry 3). -/
def Obligations.RandomByteIsMasked : Prop :=
  ∀ (x : Reg) (nn : Byte) (s : State),
    ∃ t, exec (.rnd x nn) s = .next t ∧ t.getV x = Config.rngByte s.rngDraws &&& nn ∧
      t.rngDraws = s.rngDraws + 1 ∧ KeepsRegsBut [x] s t ∧ Advances (.rnd x nn) s t ∧
      KeepsAllBut [.registers, .random] s t

/-! ### Index register and memory -/

/-- R150 and R152: ANNN sets I to NNN, FX29 to the whole byte V[X] times 5. -/
def Obligations.IndexLoads : Prop :=
  (∀ (nnn : Addr) (s : State),
    ∃ t, exec (.ldI nnn) s = .next t ∧ t.i.toNat = nnn.toNat ∧ Advances (.ldI nnn) s t ∧ KeepsAllBut [.index] s t) ∧
  (∀ (x : Reg) (s : State),
    ∃ t, exec (.ldFVx x) s = .next t ∧ t.i.toNat = (s.getV x).toNat * 5 ∧ Advances (.ldFVx x) s t ∧
      KeepsAllBut [.index] s t)

/-- R151: FX1E adds V[X] to I and writes no flag. The result modulo 65536 is the spec's own decision D24. -/
def Obligations.IndexAddWraps : Prop :=
  ∀ (x : Reg) (s : State),
    ∃ t, exec (.addIVx x) s = .next t ∧ t.i.toNat = (s.i.toNat + (s.getV x).toNat) % 65536 ∧
      Advances (.addIVx x) s t ∧ KeepsAllBut [.index] s t

/-- R153 and R154: with I + 2 inside memory, FX33 stores hundreds, tens and ones at I, I+1 and I+2, and no other byte;
with I + 2 past memory it faults and stores nothing. -/
def Obligations.DecimalDigitsAreStored : Prop :=
  ∀ (x : Reg) (s : State),
    (s.i.toNat + 2 < 0x1000 →
      ∃ t, exec (.ldBVx x) s = .next t ∧
        (t.readByte s.i.toNat).toNat = (s.getV x).toNat / 100 ∧
        (t.readByte (s.i.toNat + 1)).toNat = (s.getV x).toNat / 10 % 10 ∧
        (t.readByte (s.i.toNat + 2)).toNat = (s.getV x).toNat % 10 ∧
        (∀ a, a < s.i.toNat ∨ s.i.toNat + 2 < a → t.readByte a = s.readByte a) ∧
        Advances (.ldBVx x) s t ∧ KeepsAllBut [.memory] s t) ∧
    (0x1000 ≤ s.i.toNat + 2 →
      ∃ t, exec (.ldBVx x) s = .next t ∧ Faulted .dataOutOfRange (encode (.ldBVx x)) s t)

/-- R155: with I + X inside memory, FX55 stores V[k] at I + k for k in 0..X, and no other byte; with I + X past memory
it faults and stores nothing. -/
def Obligations.RegistersAreStored : Prop :=
  ∀ (x : Reg) (s : State),
    (s.i.toNat + x.toNat < 0x1000 →
      ∃ t, exec (.storeRegs x) s = .next t ∧
        (∀ k : Reg, k.toNat ≤ x.toNat → t.readByte (s.i.toNat + k.toNat) = s.getV k) ∧
        (∀ a, a < s.i.toNat ∨ s.i.toNat + x.toNat < a → t.readByte a = s.readByte a) ∧
        Advances (.storeRegs x) s t ∧ KeepsAllBut [.memory] s t) ∧
    (0x1000 ≤ s.i.toNat + x.toNat →
      ∃ t, exec (.storeRegs x) s = .next t ∧ Faulted .dataOutOfRange (encode (.storeRegs x)) s t)

/-- R156: with I + X inside memory, FX65 loads V[k] from I + k for k in 0..X, and no other register; with I + X past
memory it faults and loads nothing. -/
def Obligations.RegistersAreLoaded : Prop :=
  ∀ (x : Reg) (s : State),
    (s.i.toNat + x.toNat < 0x1000 →
      ∃ t, exec (.loadRegs x) s = .next t ∧
        (∀ k : Reg, k.toNat ≤ x.toNat → t.getV k = s.readByte (s.i.toNat + k.toNat)) ∧
        (∀ k : Reg, x.toNat < k.toNat → t.getV k = s.getV k) ∧
        Advances (.loadRegs x) s t ∧ KeepsAllBut [.registers] s t) ∧
    (0x1000 ≤ s.i.toNat + x.toNat →
      ∃ t, exec (.loadRegs x) s = .next t ∧ Faulted .dataOutOfRange (encode (.loadRegs x)) s t)

/-- R62 and R258: two bytes that FX55 stored are the word the next fetch at their address reads, high byte first. -/
def Obligations.StoredBytesAreFetched : Prop :=
  ∀ (x k j : Reg) (s : State), s.i.toNat + x.toNat < 0x1000 → j.toNat = k.toNat + 1 → j.toNat ≤ x.toNat →
    ∃ t, exec (.storeRegs x) s = .next t ∧
      (t.setPc (s.i + k.setWidth 16)).fetchWord = some (s.getV k ++ s.getV j)

/-! ### Display -/

/-- R170: 00E0 turns every cell off and changes nothing else, VF included. -/
def Obligations.ClearTurnsEveryCellOff : Prop :=
  ∀ s : State, ∃ t, exec .cls s = .next t ∧ (∀ px py, px < 64 → py < 32 → t.display.pixel px py = false) ∧
    Advances .cls s t ∧ KeepsAllBut [.display] s t

/-- R171 and R172: when every drawn row's byte is in memory, DXYN XORs each cell of the display with the sprite bit over
it; VF is 1 if some drawn sprite bit 1 met a cell that was on, else 0; no other register changes, nor any byte. When a
drawn row's byte lies past memory it faults and changes neither the display nor VF. -/
def Obligations.DrawXorsTheClippedSprite : Prop :=
  ∀ (x y : Reg) (n : Nibble) (s : State),
    ((∀ r, r < n.toNat → (s.getV y).toNat % 32 + r < 32 → s.i.toNat + r < 0x1000) →
      ∃ t, exec (.drw x y n) s = .next t ∧
        (∀ px py, px < 64 → py < 32 →
          t.display.pixel px py = (s.display.pixel px py ^^ s.spriteBit x y n px py)) ∧
        ((∃ px py, px < 64 ∧ py < 32 ∧ s.spriteBit x y n px py = true ∧ s.display.pixel px py = true) →
          t.getV VF = 1) ∧
        ((∀ px py, px < 64 → py < 32 → s.spriteBit x y n px py = true → s.display.pixel px py = false) →
          t.getV VF = 0) ∧
        KeepsRegsBut [VF] s t ∧ Advances (.drw x y n) s t ∧ KeepsAllBut [.display, .registers] s t) ∧
    (∀ r, r < n.toNat → (s.getV y).toNat % 32 + r < 32 → 0x1000 ≤ s.i.toNat + r →
      ∃ t, exec (.drw x y n) s = .next t ∧ Faulted .dataOutOfRange (encode (.drw x y n)) s t)

/-- R174, which the spec derives from R172: drawing the same sprite twice at the same origin restores the display; the
second VF is 1 exactly when the first draw turned some cell on, the first exactly when a drawn sprite bit met a cell
already on; both are 0 or 1. -/
def Obligations.DrawTwiceRestoresTheDisplay : Prop :=
  ∀ (x y : Reg) (n : Nibble) (s : State),
    (s.drawnRows y n = 0 ∨ s.i.toNat + s.drawnRows y n - 1 < 0x1000) →
    ∃ t, exec (.drw x y n) s = .next t ∧ (t.getV VF = 0 ∨ t.getV VF = 1) ∧
      (t.getV VF = 1 ↔
        ∃ px py, px < 64 ∧ py < 32 ∧ s.spriteBit x y n px py = true ∧ s.display.pixel px py = true) ∧
      (t.originX x = s.originX x → t.originY y = s.originY y →
        ∃ u, exec (.drw x y n) t = .next u ∧ u.display = s.display ∧ (u.getV VF = 0 ∨ u.getV VF = 1) ∧
          (u.getV VF = 1 ↔
            ∃ px py, px < 64 ∧ py < 32 ∧ s.display.pixel px py = false ∧ t.display.pixel px py = true))

/-- R173, the spec's own decision D19: a DXYN depends on memory through the bytes of the rows it draws alone; with those
the same, any other contents give the same step. -/
def Obligations.DrawReadsOnlyTheDrawnRows : Prop :=
  ∀ (x y : Reg) (n : Nibble) (s t : State) (m : Memory),
    (∀ r, r < s.drawnRows y n → m.read (s.i.toNat + r) = s.readByte (s.i.toNat + r)) →
    exec (.drw x y n) s = .next t → exec (.drw x y n) { s with mem := m } = .next { t with mem := m }

/-! ### Keypad and timers -/

/-- R191 and R192: with V[X] at most 0x0F, EX9E skips if that key is pressed, EXA1 if not, and nothing else changes;
with V[X] above 0x0F both fault. -/
def Obligations.SkipsOnAKey : Prop :=
  ∀ (x : Reg) (s : State),
    (∀ k : Reg, (s.getV x).toNat = k.toNat →
      (∃ t, exec (.skp x) s = .next t ∧ t.pc = (if s.keyDown k = true then s.pc + 4 else s.pc + 2) ∧
        t.cur = fieldsOf (encode (.skp x)) ∧ KeepsAllBut [] s t) ∧
      (∃ t, exec (.sknp x) s = .next t ∧ t.pc = (if s.keyDown k = true then s.pc + 2 else s.pc + 4) ∧
        t.cur = fieldsOf (encode (.sknp x)) ∧ KeepsAllBut [] s t)) ∧
    (0x0F < (s.getV x).toNat →
      (∃ t, exec (.skp x) s = .next t ∧ Faulted .keyIndexOutOfRange (encode (.skp x)) s t) ∧
      (∃ t, exec (.sknp x) s = .next t ∧ Faulted .keyIndexOutOfRange (encode (.sknp x)) s t))

/-- R193: FX0A stores the lowest-numbered pressed key and goes on; with none pressed PC is the instruction's own address
again and only current_instruction may change. -/
def Obligations.WaitForKeyTakesTheLowest : Prop :=
  ∀ (x : Reg) (s : State),
    (∀ k : Reg, s.keyDown k = true → (∀ j : Reg, j.toNat < k.toNat → s.keyDown j = false) →
      ∃ t, exec (.ldVxK x) s = .next t ∧ (t.getV x).toNat = k.toNat ∧ KeepsRegsBut [x] s t ∧
        Advances (.ldVxK x) s t ∧ KeepsAllBut [.registers] s t) ∧
    ((∀ k : Reg, s.keyDown k = false) →
      exec (.ldVxK x) s = .next { s with cur := fieldsOf (encode (.ldVxK x)) })

/-- R200, R201 and R202: FX07 reads the delay timer, FX15 sets it, FX18 sets the sound timer. -/
def Obligations.TimerTransfers : Prop :=
  ∀ (x : Reg) (s : State),
    (∃ t, exec (.ldVxDT x) s = .next t ∧ t.getV x = s.delayTimer ∧ KeepsRegsBut [x] s t ∧
      Advances (.ldVxDT x) s t ∧ KeepsAllBut [.registers] s t) ∧
    (∃ t, exec (.ldDTVx x) s = .next t ∧ t.delayTimer = s.getV x ∧ Advances (.ldDTVx x) s t ∧
      KeepsAllBut [.delayTimer] s t) ∧
    (∃ t, exec (.ldSTVx x) s = .next t ∧ t.soundTimer = s.getV x ∧ Advances (.ldSTVx x) s t ∧
      KeepsAllBut [.soundTimer] s t)

/-! ### Host operations -/

/-- R230: a tick takes 1 from each timer that is not 0 and changes nothing else; that it does so in every run state is
the spec's own decision D13. -/
def Obligations.TickDecrementsNonZeroTimers : Prop :=
  ∀ s : State,
    s.tickTimers.delayTimer.toNat = s.delayTimer.toNat - 1 ∧
    s.tickTimers.soundTimer.toNat = s.soundTimer.toNat - 1 ∧
    s.tickTimers = { s with delayTimer := s.tickTimers.delayTimer, soundTimer := s.tickTimers.soundTimer }

/-- R231: after k ticks a timer that held n holds n - k, and 0 from the n-th tick on, each timer on its own. -/
def Obligations.TimerReachesZeroAfterItsValue : Prop :=
  ∀ (k : Nat) (s : State),
    (State.tickTimers^[k] s).delayTimer.toNat = s.delayTimer.toNat - k ∧
    (State.tickTimers^[k] s).soundTimer.toNat = s.soundTimer.toNat - k

/-- R233: set_key writes the one cell; that it does so in every run state is the spec's own decision D22. -/
def Obligations.SetKeyWritesOneCell : Prop :=
  ∀ (s : State) (k : Fin 16) (pressed : Bool),
    (∀ j : Reg, (s.setKey k pressed).keyDown j = if j.toNat = k.val then pressed else s.keyDown j) ∧
    s.setKey k pressed = { s with keypad := (s.setKey k pressed).keypad }

/-- R236: pause acts in Running, resume in Paused; that every other request is ignored is the spec's own decision D21.
-/
def Obligations.PauseAndResume : Prop :=
  ∀ s : State,
    (s.runState = .running → s.pause = { s with runState := .paused } ∧ s.resume = s) ∧
    (s.runState = .paused → s.pause = s ∧ s.resume = { s with runState := .running }) ∧
    (s.runState = .halted → s.pause = s ∧ s.resume = s)

/-- R22 and R235: the output cell y*64 + x is the cell at column x and row y, and the tone sounds exactly while the
sound timer is not 0. -/
def Obligations.OutputsShowTheState : Prop :=
  ∀ s : State,
    (∀ px py, px < 64 → py < 32 → s.displayCell (py * 64 + px) = s.display.pixel px py) ∧
    (s.tone = true ↔ 0 < s.soundTimer.toNat)

/-- R250, R252 and R37: an image of at most 3584 bytes is loaded verbatim from 0x200, over the font and zeros, and every
other component has its reset value; current_instruction and fault are the spec's own decisions D11 and D9, and the
oracle's counter is the model's own and is not stated. -/
def Obligations.ConstructLoadsTheImage : Prop :=
  ∀ image : List Byte, image.length ≤ 3584 →
    ∃ m, construct image = .next m ∧
      (∀ a, a < 0x50 → m.readByte a = font.getD a 0) ∧
      (∀ a, 0x50 ≤ a → a < 0x200 → m.readByte a = 0) ∧
      (∀ k, k < image.length → m.readByte (0x200 + k) = image.getD k 0) ∧
      (∀ a, 0x200 + image.length ≤ a → a < 0x1000 → m.readByte a = 0) ∧
      (∀ px py, px < 64 → py < 32 → m.display.pixel px py = false) ∧
      (∀ r, m.getV r = 0) ∧ m.i = 0 ∧ m.pc = 0x200 ∧
      (∀ k, k < 12 → m.stack.toList.getD k 0 = 0) ∧ m.sp.val = 0 ∧
      m.delayTimer = 0 ∧ m.soundTimer = 0 ∧ (∀ k, m.keyDown k = false) ∧
      m.cur = ⟨0, 0, 0, 0, 0, 0⟩ ∧ m.runState = .running ∧ m.fault = none

/-- R251: a longer image gives ImageTooLarge and no Machine; one of exactly 3584 bytes gives a Machine. -/
def Obligations.ConstructRefusesLongImages : Prop :=
  ∀ image : List Byte,
    (3584 < image.length → construct image = .fault .imageTooLarge) ∧
    (image.length = 3584 → ∃ m, construct image = .next m)

/-- R240, the spec's own decision D12: the requests of a frame take effect in order: the key edges, then the steps, then
one tick. -/
def Obligations.FrameRunsKeysThenStepsThenTick : Prop :=
  ∀ (f : HostFrame) (s : State), (∀ k ∈ f.keys, k.1 < 16) →
    ∃ u v : State, u = f.keys.foldl (fun (u : State) k => u.setKey (Fin.ofNat 16 k.1) k.2) s ∧
      applyOps (List.replicate f.steps .step) u = .next v ∧ applyFrame f s = .next v.tickTimers
end

