-- ==== Sys2Proof/Laws/Decode.lean ====
section
/-! SUPPORT. Decoding: the rows of the opcode map do not overlap, so a word decodes by any row it matches; the fields of
a word laid out by the encoder. -/

namespace Sys2Proof

/-! ### Fields of a laid-out word -/

@[simp] theorem fieldNNN_encNNN (t : BitVec 4) (nnn : Addr) : fieldNNN (encNNN t nnn) = nnn := by
  ext k hk
  simp only [fieldNNN, encNNN, BitVec.getElem_extractLsb', BitVec.getLsbD_append]
  simp [hk]

@[simp] theorem fieldNN_encXNN (t : BitVec 4) (x : Reg) (nn : Byte) : fieldNN (encXNN t x nn) = nn := by
  ext k hk
  simp only [fieldNN, encXNN, BitVec.getElem_extractLsb', BitVec.getLsbD_append]
  simp [hk]

@[simp] theorem fieldX_encXNN (t : BitVec 4) (x : Reg) (nn : Byte) : fieldX (encXNN t x nn) = x := by
  ext k hk
  simp only [fieldX, encXNN, BitVec.getElem_extractLsb', BitVec.getLsbD_append]
  simp [hk]

@[simp] theorem fieldX_encXYN (t : BitVec 4) (x y : Reg) (n : Nibble) : fieldX (encXYN t x y n) = x := by
  ext k hk
  simp only [fieldX, encXYN, BitVec.getElem_extractLsb', BitVec.getLsbD_append]
  simp [hk, show ¬(8 + k < 4) by omega, show ¬(8 + k - 4 < 4) by omega, show 8 + k - 4 - 4 = k by omega]

@[simp] theorem fieldY_encXYN (t : BitVec 4) (x y : Reg) (n : Nibble) : fieldY (encXYN t x y n) = y := by
  ext k hk
  simp only [fieldY, encXYN, BitVec.getElem_extractLsb', BitVec.getLsbD_append]
  simp [hk]

@[simp] theorem fieldN_encXYN (t : BitVec 4) (x y : Reg) (n : Nibble) : fieldN (encXYN t x y n) = n := by
  ext k hk
  simp only [fieldN, encXYN, BitVec.getElem_extractLsb', BitVec.getLsbD_append]
  simp [hk]

@[simp] theorem fieldT_encXYN (t : BitVec 4) (x y : Reg) (n : Nibble) : fieldT (encXYN t x y n) = t := by
  ext k hk
  simp only [fieldT, encXYN, BitVec.getElem_extractLsb', BitVec.getLsbD_append]
  simp [hk, show ¬(12 + k < 4) by omega, show ¬(12 + k - 4 < 4) by omega, show ¬(12 + k - 4 - 4 < 4) by omega,
    show 12 + k - 4 - 4 - 4 = k by omega]

@[simp] theorem fieldT_encXNN (t : BitVec 4) (x : Reg) (nn : Byte) : fieldT (encXNN t x nn) = t := by
  ext k hk
  simp only [fieldT, encXNN, BitVec.getElem_extractLsb', BitVec.getLsbD_append]
  simp [show ¬(12 + k < 8) by omega, show ¬(12 + k - 8 < 4) by omega, show 12 + k - 8 - 4 = k by omega, BitVec.getLsbD_eq_getElem hk]

@[simp] theorem fieldT_encNNN (t : BitVec 4) (nnn : Addr) : fieldT (encNNN t nnn) = t := by
  ext k hk
  simp only [fieldT, encNNN, BitVec.getElem_extractLsb', BitVec.getLsbD_append]
  simp [show ¬(12 + k < 12) by omega, show 12 + k - 12 = k by omega, BitVec.getLsbD_eq_getElem hk]

/-- A word is laid out from its four nibbles (R71). -/
theorem encXYN_fields (op : Word) : encXYN (fieldT op) (fieldX op) (fieldY op) (fieldN op) = op := by
  ext k hk
  rw [← BitVec.getLsbD_eq_getElem, ← BitVec.getLsbD_eq_getElem, encXYN]
  simp only [BitVec.getLsbD_append, fieldT, fieldX, fieldY, fieldN, BitVec.getLsbD_extractLsb']
  by_cases h1 : k < 4
  · simp [h1]
  · by_cases h2 : k - 4 < 4
    · simp [h1, h2, show 4 + (k - 4) = k by omega]
    · by_cases h3 : k - 4 - 4 < 4
      · simp [h1, h2, h3, show 8 + (k - 4 - 4) = k by omega]
      · simp [h1, h2, h3, show 12 + (k - 4 - 4 - 4) = k by omega, show k - 4 - 4 - 4 < 4 by omega]

/-- A word is laid out from T, X and NN (R71). -/
theorem encXNN_fields (op : Word) : encXNN (fieldT op) (fieldX op) (fieldNN op) = op := by
  ext k hk
  rw [← BitVec.getLsbD_eq_getElem, ← BitVec.getLsbD_eq_getElem, encXNN]
  simp only [BitVec.getLsbD_append, fieldT, fieldX, fieldNN, BitVec.getLsbD_extractLsb']
  by_cases h1 : k < 8
  · simp [h1]
  · by_cases h2 : k - 8 < 4
    · simp [h1, h2, show 8 + (k - 8) = k by omega]
    · simp [h1, h2, show 12 + (k - 8 - 4) = k by omega, show k - 8 - 4 < 4 by omega]

/-- A word is laid out from T and NNN (R71). -/
theorem encNNN_fields (op : Word) : encNNN (fieldT op) (fieldNNN op) = op := by
  ext k hk
  rw [← BitVec.getLsbD_eq_getElem, ← BitVec.getLsbD_eq_getElem, encNNN]
  simp only [BitVec.getLsbD_append, fieldT, fieldNNN, BitVec.getLsbD_extractLsb']
  by_cases h1 : k < 12
  · simp [h1]
  · simp [h1, show 12 + (k - 12) = k by omega, show k - 12 < 4 by omega]

/-- Words laid out in format XYN are the same exactly when their nibbles are. -/
theorem encXYN_inj (t t' : BitVec 4) (x x' y y' : Reg) (n n' : Nibble) :
    encXYN t x y n = encXYN t' x' y' n' ↔ t = t' ∧ x = x' ∧ y = y' ∧ n = n' := by
  constructor
  · intro h
    exact ⟨by rw [← fieldT_encXYN t x y n, h, fieldT_encXYN], by rw [← fieldX_encXYN t x y n, h, fieldX_encXYN],
      by rw [← fieldY_encXYN t x y n, h, fieldY_encXYN], by rw [← fieldN_encXYN t x y n, h, fieldN_encXYN]⟩
  · rintro ⟨rfl, rfl, rfl, rfl⟩
    rfl

/-- The high and low bytes of a word make the word. -/
@[simp] theorem wordOfBytes_bytes (w : Word) : wordOfBytes (highByte w) (lowByte w) = w := by
  ext k hk
  rw [← BitVec.getLsbD_eq_getElem, ← BitVec.getLsbD_eq_getElem, wordOfBytes, highByte, lowByte,
    BitVec.getLsbD_append]
  by_cases h : k < 8
  · simp [h]
  · simp [h, show k - 8 < 8 by omega, show 8 + (k - 8) = k by omega]

@[simp] theorem highByte_wordOfBytes (hi lo : Byte) : highByte (wordOfBytes hi lo) = hi := by
  ext k hk
  simp only [highByte, wordOfBytes, BitVec.getElem_extractLsb', BitVec.getLsbD_append]
  simp [hk]

@[simp] theorem lowByte_wordOfBytes (hi lo : Byte) : lowByte (wordOfBytes hi lo) = lo := by
  ext k hk
  simp only [lowByte, wordOfBytes, BitVec.getElem_extractLsb', BitVec.getLsbD_append]
  simp [hk]

/-! ### Masking a laid-out word -/

theorem and_encNNN (t mt : BitVec 4) (nnn m : Addr) :
    encNNN t nnn &&& encNNN mt m = encNNN (t &&& mt) (nnn &&& m) := BitVec.and_append

theorem and_encXNN (t mt : BitVec 4) (x mx : Reg) (nn m : Byte) :
    encXNN t x nn &&& encXNN mt mx m = encXNN (t &&& mt) (x &&& mx) (nn &&& m) :=
  BitVec.and_append.trans (congrArg (· ++ (nn &&& m)) BitVec.and_append)

theorem and_encXYN (t mt : BitVec 4) (x mx y my : Reg) (n m : Nibble) :
    encXYN t x y n &&& encXYN mt mx my m = encXYN (t &&& mt) (x &&& mx) (y &&& my) (n &&& m) :=
  BitVec.and_append.trans (congrArg (· ++ (n &&& m))
    (BitVec.and_append.trans (congrArg (· ++ (y &&& my)) BitVec.and_append)))

theorem and_ones4 (t : BitVec 4) : t &&& 0xF#4 = t := BitVec.and_allOnes

theorem and_ones8 (t : BitVec 8) : t &&& 0xFF#8 = t := BitVec.and_allOnes

/-- Mask F000 on format NNN keeps the top nibble. -/
theorem matches_encNNN (t : BitVec 4) (nnn : Addr) : encNNN t nnn &&& 0xF000 = encNNN t 0 := by
  rw [show (0xF000 : Word) = encNNN 0xF#4 0#12 by decide, and_encNNN, and_ones4, BitVec.and_zero]
  rfl

/-- Mask F000 on format XNN keeps the top nibble. -/
theorem matches_encXNN (t : BitVec 4) (x : Reg) (nn : Byte) : encXNN t x nn &&& 0xF000 = encXNN t 0 0 := by
  rw [show (0xF000 : Word) = encXNN 0xF#4 0#4 0#8 by decide, and_encXNN, and_ones4, BitVec.and_zero, BitVec.and_zero]
  rfl

/-- Mask F0FF on format X keeps the top nibble and the low byte. -/
theorem matches_encX (t : BitVec 4) (x : Reg) (nn : Byte) : encXNN t x nn &&& 0xF0FF = encXNN t 0 nn := by
  rw [show (0xF0FF : Word) = encXNN 0xF#4 0#4 0xFF#8 by decide, and_encXNN, and_ones4, and_ones8, BitVec.and_zero]
  rfl

/-- Mask F000 on format XYN keeps the top nibble. -/
theorem matches_encXYN (t : BitVec 4) (x y : Reg) (n : Nibble) : encXYN t x y n &&& 0xF000 = encXYN t 0 0 0 := by
  rw [show (0xF000 : Word) = encXYN 0xF#4 0#4 0#4 0#4 by decide, and_encXYN, and_ones4, BitVec.and_zero,
    BitVec.and_zero, BitVec.and_zero]
  rfl

/-- Mask F00F on format XY keeps the top and the low nibble. -/
theorem matches_encXY (t : BitVec 4) (x y : Reg) (n : Nibble) : encXYN t x y n &&& 0xF00F = encXYN t 0 0 n := by
  rw [show (0xF00F : Word) = encXYN 0xF#4 0#4 0#4 0xF#4 by decide, and_encXYN, and_ones4, and_ones4,
    BitVec.and_zero, BitVec.and_zero]
  rfl

/-- Mask F000 with a match fixes T. -/
theorem and_F000_eq_iff (op : Word) (t : BitVec 4) : op &&& 0xF000 = encNNN t 0 ↔ fieldT op = t := by
  rw [← encNNN_fields op, matches_encNNN, fieldT_encNNN]
  exact ⟨fun h => by simpa using congrArg fieldT h, fun h => by rw [h]⟩

/-- Mask F00F with a match fixes T and N. -/
theorem and_F00F_eq_iff (op : Word) (t : BitVec 4) (n : Nibble) :
    op &&& 0xF00F = encXYN t 0 0 n ↔ fieldT op = t ∧ fieldN op = n := by
  rw [← encXYN_fields op, matches_encXY, fieldT_encXYN, fieldN_encXYN]
  exact ⟨fun h => ⟨by simpa using congrArg fieldT h, by simpa using congrArg fieldN h⟩, fun h => by rw [h.1, h.2]⟩

/-- Mask F0FF with a match fixes T and NN. -/
theorem and_F0FF_eq_iff (op : Word) (t : BitVec 4) (nn : Byte) :
    op &&& 0xF0FF = encXNN t 0 nn ↔ fieldT op = t ∧ fieldNN op = nn := by
  rw [← encXNN_fields op, matches_encX, fieldT_encXNN, fieldNN_encXNN]
  exact ⟨fun h => ⟨by simpa using congrArg fieldT h, by simpa using congrArg fieldNN h⟩, fun h => by rw [h.1, h.2]⟩

/-! ### The rows do not overlap (R74) -/

/-- Two rows fix some bit differently. -/
def Row.differsFrom (r q : Row) : Bool := (r.pattern ^^^ q.pattern) &&& r.mask &&& q.mask != 0

theorem opcodeTable_differs : opcodeTable.Pairwise (fun r q => r.differsFrom q = true) := by decide

/-- A word matches no two rows that fix a bit differently. -/
theorem not_matches_of_differs (r q : Row) (op : Word) (h : r.differsFrom q = true) (hr : r.matchesWord op = true) :
    q.matchesWord op = false := by
  simp only [Row.differsFrom, bne_iff_ne, Row.matchesWord, beq_iff_eq] at h hr
  rw [Row.matchesWord, beq_eq_false_iff_ne]
  intro hq
  apply h
  rw [← hr, ← hq]
  ext k hk
  simp only [BitVec.getElem_and, BitVec.getElem_xor]
  cases op[k] <;> cases r.mask[k] <;> cases q.mask[k] <;> simp

theorem find?_of_pairwise (rows : List Row) (r : Row) (op : Word)
    (hp : rows.Pairwise (fun r q => r.differsFrom q = true)) (hr : r ∈ rows) (hm : r.matchesWord op = true) :
    rows.find? (·.matchesWord op) = some r := by
  induction rows with
  | nil => simp at hr
  | cons q rows ih =>
    rw [List.pairwise_cons] at hp
    rcases List.mem_cons.mp hr with h | h
    · subst h
      simp [hm]
    · by_cases hq : q.matchesWord op = true
      · have := not_matches_of_differs q r op (hp.1 r h) hq
        rw [hm] at this
        exact absurd this (by simp)
      · have := ih hp.2 h
        simpa [List.find?_cons, hq] using this

/-- A word that matches a row decodes to that row's instruction. -/
theorem decode_of_matches (r : Row) (op : Word) (hr : r ∈ opcodeTable) (hm : r.matchesWord op = true) :
    decode op = .instr (r.build op) := by
  rw [decode, find?_of_pairwise _ r op opcodeTable_differs hr hm]

/-- What a word that decodes to an instruction matched. -/
theorem matches_of_decode (op : Word) (i : Instr) (h : decode op = .instr i) :
    ∃ r ∈ opcodeTable, r.matchesWord op = true ∧ r.build op = i := by
  unfold decode at h
  split at h
  · next r hr =>
    refine ⟨r, List.mem_of_find?_eq_some hr, ?_, by simpa using h⟩
    simpa using List.find?_some hr
  · simp at h

/-- A word decodes to the no-op exactly when it matches no row. -/
theorem decode_eq_noOp_iff (op : Word) :
    (∃ space, decode op = .noOp space) ↔ ∀ r ∈ opcodeTable, r.matchesWord op = false := by
  unfold decode
  split
  · next r hr =>
    constructor
    · rintro ⟨_, h⟩
      simp at h
    · intro h
      have h1 := h r (List.mem_of_find?_eq_some hr)
      have h2 : r.matchesWord op = true := by simpa using List.find?_some hr
      rw [h1] at h2
      exact absurd h2 (by simp)
  · next hn =>
    constructor
    · intro _ r hr
      simpa using List.find?_eq_none.mp hn r hr
    · exact fun _ => ⟨_, rfl⟩

end Sys2Proof
end

