-- ==== Sys2Proof/Laws/State.lean ====
section
/-! SUPPORT. One lemma per field of State and named update: what the update writes, and that it leaves the rest. -/

namespace Sys2Proof.Machine

open Sys2Proof

/-! ### V[x] <- b -/

@[simp] theorem setV_mem (s : State) (x : Reg) (b : Byte) : (s.setV x b).mem = s.mem := rfl
@[simp] theorem setV_display (s : State) (x : Reg) (b : Byte) : (s.setV x b).display = s.display := rfl
@[simp] theorem setV_v (s : State) (x : Reg) (b : Byte) : (s.setV x b).v = s.v.set x.toNat b x.isLt := rfl
@[simp] theorem setV_i (s : State) (x : Reg) (b : Byte) : (s.setV x b).i = s.i := rfl
@[simp] theorem setV_pc (s : State) (x : Reg) (b : Byte) : (s.setV x b).pc = s.pc := rfl
@[simp] theorem setV_stack (s : State) (x : Reg) (b : Byte) : (s.setV x b).stack = s.stack := rfl
@[simp] theorem setV_sp (s : State) (x : Reg) (b : Byte) : (s.setV x b).sp = s.sp := rfl
@[simp] theorem setV_delayTimer (s : State) (x : Reg) (b : Byte) : (s.setV x b).delayTimer = s.delayTimer := rfl
@[simp] theorem setV_soundTimer (s : State) (x : Reg) (b : Byte) : (s.setV x b).soundTimer = s.soundTimer := rfl
@[simp] theorem setV_keypad (s : State) (x : Reg) (b : Byte) : (s.setV x b).keypad = s.keypad := rfl
@[simp] theorem setV_cur (s : State) (x : Reg) (b : Byte) : (s.setV x b).cur = s.cur := rfl
@[simp] theorem setV_runState (s : State) (x : Reg) (b : Byte) : (s.setV x b).runState = s.runState := rfl
@[simp] theorem setV_fault (s : State) (x : Reg) (b : Byte) : (s.setV x b).fault = s.fault := rfl
@[simp] theorem setV_rngDraws (s : State) (x : Reg) (b : Byte) : (s.setV x b).rngDraws = s.rngDraws := rfl
@[simp] theorem setV_readByte (s : State) (x : Reg) (b : Byte) (at_ : Nat) : (s.setV x b).readByte at_ = s.readByte at_ := rfl
@[simp] theorem setV_keyDown (s : State) (x : Reg) (b : Byte) (key : Reg) : (s.setV x b).keyDown key = s.keyDown key := rfl

/-! ### pc <- w -/

@[simp] theorem setPc_mem (s : State) (w : Word) : (s.setPc w).mem = s.mem := rfl
@[simp] theorem setPc_display (s : State) (w : Word) : (s.setPc w).display = s.display := rfl
@[simp] theorem setPc_v (s : State) (w : Word) : (s.setPc w).v = s.v := rfl
@[simp] theorem setPc_i (s : State) (w : Word) : (s.setPc w).i = s.i := rfl
@[simp] theorem setPc_pc (s : State) (w : Word) : (s.setPc w).pc = w := rfl
@[simp] theorem setPc_stack (s : State) (w : Word) : (s.setPc w).stack = s.stack := rfl
@[simp] theorem setPc_sp (s : State) (w : Word) : (s.setPc w).sp = s.sp := rfl
@[simp] theorem setPc_delayTimer (s : State) (w : Word) : (s.setPc w).delayTimer = s.delayTimer := rfl
@[simp] theorem setPc_soundTimer (s : State) (w : Word) : (s.setPc w).soundTimer = s.soundTimer := rfl
@[simp] theorem setPc_keypad (s : State) (w : Word) : (s.setPc w).keypad = s.keypad := rfl
@[simp] theorem setPc_cur (s : State) (w : Word) : (s.setPc w).cur = s.cur := rfl
@[simp] theorem setPc_runState (s : State) (w : Word) : (s.setPc w).runState = s.runState := rfl
@[simp] theorem setPc_fault (s : State) (w : Word) : (s.setPc w).fault = s.fault := rfl
@[simp] theorem setPc_rngDraws (s : State) (w : Word) : (s.setPc w).rngDraws = s.rngDraws := rfl
@[simp] theorem setPc_getV (s : State) (w : Word) (r : Reg) : (s.setPc w).getV r = s.getV r := rfl
@[simp] theorem setPc_readByte (s : State) (w : Word) (at_ : Nat) : (s.setPc w).readByte at_ = s.readByte at_ := rfl
@[simp] theorem setPc_keyDown (s : State) (w : Word) (key : Reg) : (s.setPc w).keyDown key = s.keyDown key := rfl

/-! ### I <- w -/

@[simp] theorem setI_mem (s : State) (w : Word) : (s.setI w).mem = s.mem := rfl
@[simp] theorem setI_display (s : State) (w : Word) : (s.setI w).display = s.display := rfl
@[simp] theorem setI_v (s : State) (w : Word) : (s.setI w).v = s.v := rfl
@[simp] theorem setI_i (s : State) (w : Word) : (s.setI w).i = w := rfl
@[simp] theorem setI_pc (s : State) (w : Word) : (s.setI w).pc = s.pc := rfl
@[simp] theorem setI_stack (s : State) (w : Word) : (s.setI w).stack = s.stack := rfl
@[simp] theorem setI_sp (s : State) (w : Word) : (s.setI w).sp = s.sp := rfl
@[simp] theorem setI_delayTimer (s : State) (w : Word) : (s.setI w).delayTimer = s.delayTimer := rfl
@[simp] theorem setI_soundTimer (s : State) (w : Word) : (s.setI w).soundTimer = s.soundTimer := rfl
@[simp] theorem setI_keypad (s : State) (w : Word) : (s.setI w).keypad = s.keypad := rfl
@[simp] theorem setI_cur (s : State) (w : Word) : (s.setI w).cur = s.cur := rfl
@[simp] theorem setI_runState (s : State) (w : Word) : (s.setI w).runState = s.runState := rfl
@[simp] theorem setI_fault (s : State) (w : Word) : (s.setI w).fault = s.fault := rfl
@[simp] theorem setI_rngDraws (s : State) (w : Word) : (s.setI w).rngDraws = s.rngDraws := rfl
@[simp] theorem setI_getV (s : State) (w : Word) (r : Reg) : (s.setI w).getV r = s.getV r := rfl
@[simp] theorem setI_readByte (s : State) (w : Word) (at_ : Nat) : (s.setI w).readByte at_ = s.readByte at_ := rfl
@[simp] theorem setI_keyDown (s : State) (w : Word) (key : Reg) : (s.setI w).keyDown key = s.keyDown key := rfl

/-! ### the display -/

@[simp] theorem setDisplay_mem (s : State) (d : Display) : (s.setDisplay d).mem = s.mem := rfl
@[simp] theorem setDisplay_display (s : State) (d : Display) : (s.setDisplay d).display = d := rfl
@[simp] theorem setDisplay_v (s : State) (d : Display) : (s.setDisplay d).v = s.v := rfl
@[simp] theorem setDisplay_i (s : State) (d : Display) : (s.setDisplay d).i = s.i := rfl
@[simp] theorem setDisplay_pc (s : State) (d : Display) : (s.setDisplay d).pc = s.pc := rfl
@[simp] theorem setDisplay_stack (s : State) (d : Display) : (s.setDisplay d).stack = s.stack := rfl
@[simp] theorem setDisplay_sp (s : State) (d : Display) : (s.setDisplay d).sp = s.sp := rfl
@[simp] theorem setDisplay_delayTimer (s : State) (d : Display) : (s.setDisplay d).delayTimer = s.delayTimer := rfl
@[simp] theorem setDisplay_soundTimer (s : State) (d : Display) : (s.setDisplay d).soundTimer = s.soundTimer := rfl
@[simp] theorem setDisplay_keypad (s : State) (d : Display) : (s.setDisplay d).keypad = s.keypad := rfl
@[simp] theorem setDisplay_cur (s : State) (d : Display) : (s.setDisplay d).cur = s.cur := rfl
@[simp] theorem setDisplay_runState (s : State) (d : Display) : (s.setDisplay d).runState = s.runState := rfl
@[simp] theorem setDisplay_fault (s : State) (d : Display) : (s.setDisplay d).fault = s.fault := rfl
@[simp] theorem setDisplay_rngDraws (s : State) (d : Display) : (s.setDisplay d).rngDraws = s.rngDraws := rfl
@[simp] theorem setDisplay_getV (s : State) (d : Display) (r : Reg) : (s.setDisplay d).getV r = s.getV r := rfl
@[simp] theorem setDisplay_readByte (s : State) (d : Display) (at_ : Nat) : (s.setDisplay d).readByte at_ = s.readByte at_ := rfl
@[simp] theorem setDisplay_keyDown (s : State) (d : Display) (key : Reg) : (s.setDisplay d).keyDown key = s.keyDown key := rfl

/-! ### delay_timer <- b -/

@[simp] theorem setDelayTimer_mem (s : State) (b : Byte) : (s.setDelayTimer b).mem = s.mem := rfl
@[simp] theorem setDelayTimer_display (s : State) (b : Byte) : (s.setDelayTimer b).display = s.display := rfl
@[simp] theorem setDelayTimer_v (s : State) (b : Byte) : (s.setDelayTimer b).v = s.v := rfl
@[simp] theorem setDelayTimer_i (s : State) (b : Byte) : (s.setDelayTimer b).i = s.i := rfl
@[simp] theorem setDelayTimer_pc (s : State) (b : Byte) : (s.setDelayTimer b).pc = s.pc := rfl
@[simp] theorem setDelayTimer_stack (s : State) (b : Byte) : (s.setDelayTimer b).stack = s.stack := rfl
@[simp] theorem setDelayTimer_sp (s : State) (b : Byte) : (s.setDelayTimer b).sp = s.sp := rfl
@[simp] theorem setDelayTimer_delayTimer (s : State) (b : Byte) : (s.setDelayTimer b).delayTimer = b := rfl
@[simp] theorem setDelayTimer_soundTimer (s : State) (b : Byte) : (s.setDelayTimer b).soundTimer = s.soundTimer := rfl
@[simp] theorem setDelayTimer_keypad (s : State) (b : Byte) : (s.setDelayTimer b).keypad = s.keypad := rfl
@[simp] theorem setDelayTimer_cur (s : State) (b : Byte) : (s.setDelayTimer b).cur = s.cur := rfl
@[simp] theorem setDelayTimer_runState (s : State) (b : Byte) : (s.setDelayTimer b).runState = s.runState := rfl
@[simp] theorem setDelayTimer_fault (s : State) (b : Byte) : (s.setDelayTimer b).fault = s.fault := rfl
@[simp] theorem setDelayTimer_rngDraws (s : State) (b : Byte) : (s.setDelayTimer b).rngDraws = s.rngDraws := rfl
@[simp] theorem setDelayTimer_getV (s : State) (b : Byte) (r : Reg) : (s.setDelayTimer b).getV r = s.getV r := rfl
@[simp] theorem setDelayTimer_readByte (s : State) (b : Byte) (at_ : Nat) : (s.setDelayTimer b).readByte at_ = s.readByte at_ := rfl
@[simp] theorem setDelayTimer_keyDown (s : State) (b : Byte) (key : Reg) : (s.setDelayTimer b).keyDown key = s.keyDown key := rfl

/-! ### sound_timer <- b -/

@[simp] theorem setSoundTimer_mem (s : State) (b : Byte) : (s.setSoundTimer b).mem = s.mem := rfl
@[simp] theorem setSoundTimer_display (s : State) (b : Byte) : (s.setSoundTimer b).display = s.display := rfl
@[simp] theorem setSoundTimer_v (s : State) (b : Byte) : (s.setSoundTimer b).v = s.v := rfl
@[simp] theorem setSoundTimer_i (s : State) (b : Byte) : (s.setSoundTimer b).i = s.i := rfl
@[simp] theorem setSoundTimer_pc (s : State) (b : Byte) : (s.setSoundTimer b).pc = s.pc := rfl
@[simp] theorem setSoundTimer_stack (s : State) (b : Byte) : (s.setSoundTimer b).stack = s.stack := rfl
@[simp] theorem setSoundTimer_sp (s : State) (b : Byte) : (s.setSoundTimer b).sp = s.sp := rfl
@[simp] theorem setSoundTimer_delayTimer (s : State) (b : Byte) : (s.setSoundTimer b).delayTimer = s.delayTimer := rfl
@[simp] theorem setSoundTimer_soundTimer (s : State) (b : Byte) : (s.setSoundTimer b).soundTimer = b := rfl
@[simp] theorem setSoundTimer_keypad (s : State) (b : Byte) : (s.setSoundTimer b).keypad = s.keypad := rfl
@[simp] theorem setSoundTimer_cur (s : State) (b : Byte) : (s.setSoundTimer b).cur = s.cur := rfl
@[simp] theorem setSoundTimer_runState (s : State) (b : Byte) : (s.setSoundTimer b).runState = s.runState := rfl
@[simp] theorem setSoundTimer_fault (s : State) (b : Byte) : (s.setSoundTimer b).fault = s.fault := rfl
@[simp] theorem setSoundTimer_rngDraws (s : State) (b : Byte) : (s.setSoundTimer b).rngDraws = s.rngDraws := rfl
@[simp] theorem setSoundTimer_getV (s : State) (b : Byte) (r : Reg) : (s.setSoundTimer b).getV r = s.getV r := rfl
@[simp] theorem setSoundTimer_readByte (s : State) (b : Byte) (at_ : Nat) : (s.setSoundTimer b).readByte at_ = s.readByte at_ := rfl
@[simp] theorem setSoundTimer_keyDown (s : State) (b : Byte) (key : Reg) : (s.setSoundTimer b).keyDown key = s.keyDown key := rfl

/-! ### bytes of memory -/

@[simp] theorem writeBytes_mem (s : State) (a : Nat) (bs : List Byte) : (s.writeBytes a bs).mem = s.mem.writeBytes a bs := rfl
@[simp] theorem writeBytes_display (s : State) (a : Nat) (bs : List Byte) : (s.writeBytes a bs).display = s.display := rfl
@[simp] theorem writeBytes_v (s : State) (a : Nat) (bs : List Byte) : (s.writeBytes a bs).v = s.v := rfl
@[simp] theorem writeBytes_i (s : State) (a : Nat) (bs : List Byte) : (s.writeBytes a bs).i = s.i := rfl
@[simp] theorem writeBytes_pc (s : State) (a : Nat) (bs : List Byte) : (s.writeBytes a bs).pc = s.pc := rfl
@[simp] theorem writeBytes_stack (s : State) (a : Nat) (bs : List Byte) : (s.writeBytes a bs).stack = s.stack := rfl
@[simp] theorem writeBytes_sp (s : State) (a : Nat) (bs : List Byte) : (s.writeBytes a bs).sp = s.sp := rfl
@[simp] theorem writeBytes_delayTimer (s : State) (a : Nat) (bs : List Byte) : (s.writeBytes a bs).delayTimer = s.delayTimer := rfl
@[simp] theorem writeBytes_soundTimer (s : State) (a : Nat) (bs : List Byte) : (s.writeBytes a bs).soundTimer = s.soundTimer := rfl
@[simp] theorem writeBytes_keypad (s : State) (a : Nat) (bs : List Byte) : (s.writeBytes a bs).keypad = s.keypad := rfl
@[simp] theorem writeBytes_cur (s : State) (a : Nat) (bs : List Byte) : (s.writeBytes a bs).cur = s.cur := rfl
@[simp] theorem writeBytes_runState (s : State) (a : Nat) (bs : List Byte) : (s.writeBytes a bs).runState = s.runState := rfl
@[simp] theorem writeBytes_fault (s : State) (a : Nat) (bs : List Byte) : (s.writeBytes a bs).fault = s.fault := rfl
@[simp] theorem writeBytes_rngDraws (s : State) (a : Nat) (bs : List Byte) : (s.writeBytes a bs).rngDraws = s.rngDraws := rfl
@[simp] theorem writeBytes_getV (s : State) (a : Nat) (bs : List Byte) (r : Reg) : (s.writeBytes a bs).getV r = s.getV r := rfl
@[simp] theorem writeBytes_keyDown (s : State) (a : Nat) (bs : List Byte) (key : Reg) : (s.writeBytes a bs).keyDown key = s.keyDown key := rfl

/-! ### staging PC and current_instruction -/

@[simp] theorem stage_mem (s : State) (op : Word) : (s.stage op).mem = s.mem := rfl
@[simp] theorem stage_display (s : State) (op : Word) : (s.stage op).display = s.display := rfl
@[simp] theorem stage_v (s : State) (op : Word) : (s.stage op).v = s.v := rfl
@[simp] theorem stage_i (s : State) (op : Word) : (s.stage op).i = s.i := rfl
@[simp] theorem stage_pc (s : State) (op : Word) : (s.stage op).pc = s.pc + 2 := rfl
@[simp] theorem stage_stack (s : State) (op : Word) : (s.stage op).stack = s.stack := rfl
@[simp] theorem stage_sp (s : State) (op : Word) : (s.stage op).sp = s.sp := rfl
@[simp] theorem stage_delayTimer (s : State) (op : Word) : (s.stage op).delayTimer = s.delayTimer := rfl
@[simp] theorem stage_soundTimer (s : State) (op : Word) : (s.stage op).soundTimer = s.soundTimer := rfl
@[simp] theorem stage_keypad (s : State) (op : Word) : (s.stage op).keypad = s.keypad := rfl
@[simp] theorem stage_cur (s : State) (op : Word) : (s.stage op).cur = fieldsOf op := rfl
@[simp] theorem stage_runState (s : State) (op : Word) : (s.stage op).runState = s.runState := rfl
@[simp] theorem stage_fault (s : State) (op : Word) : (s.stage op).fault = s.fault := rfl
@[simp] theorem stage_rngDraws (s : State) (op : Word) : (s.stage op).rngDraws = s.rngDraws := rfl
@[simp] theorem stage_getV (s : State) (op : Word) (r : Reg) : (s.stage op).getV r = s.getV r := rfl
@[simp] theorem stage_readByte (s : State) (op : Word) (at_ : Nat) : (s.stage op).readByte at_ = s.readByte at_ := rfl
@[simp] theorem stage_keyDown (s : State) (op : Word) (key : Reg) : (s.stage op).keyDown key = s.keyDown key := rfl

/-! ### fault entry -/

@[simp] theorem raise_mem (s : State) (k : FaultKind) (op : Word) : (s.raise k op).mem = s.mem := rfl
@[simp] theorem raise_display (s : State) (k : FaultKind) (op : Word) : (s.raise k op).display = s.display := rfl
@[simp] theorem raise_v (s : State) (k : FaultKind) (op : Word) : (s.raise k op).v = s.v := rfl
@[simp] theorem raise_i (s : State) (k : FaultKind) (op : Word) : (s.raise k op).i = s.i := rfl
@[simp] theorem raise_pc (s : State) (k : FaultKind) (op : Word) : (s.raise k op).pc = s.pc := rfl
@[simp] theorem raise_stack (s : State) (k : FaultKind) (op : Word) : (s.raise k op).stack = s.stack := rfl
@[simp] theorem raise_sp (s : State) (k : FaultKind) (op : Word) : (s.raise k op).sp = s.sp := rfl
@[simp] theorem raise_delayTimer (s : State) (k : FaultKind) (op : Word) : (s.raise k op).delayTimer = s.delayTimer := rfl
@[simp] theorem raise_soundTimer (s : State) (k : FaultKind) (op : Word) : (s.raise k op).soundTimer = s.soundTimer := rfl
@[simp] theorem raise_keypad (s : State) (k : FaultKind) (op : Word) : (s.raise k op).keypad = s.keypad := rfl
@[simp] theorem raise_cur (s : State) (k : FaultKind) (op : Word) : (s.raise k op).cur = s.cur := rfl
@[simp] theorem raise_runState (s : State) (k : FaultKind) (op : Word) : (s.raise k op).runState = .halted := rfl
@[simp] theorem raise_fault (s : State) (k : FaultKind) (op : Word) : (s.raise k op).fault = some ⟨k, s.pc, op⟩ := rfl
@[simp] theorem raise_rngDraws (s : State) (k : FaultKind) (op : Word) : (s.raise k op).rngDraws = s.rngDraws := rfl
@[simp] theorem raise_getV (s : State) (k : FaultKind) (op : Word) (r : Reg) : (s.raise k op).getV r = s.getV r := rfl
@[simp] theorem raise_readByte (s : State) (k : FaultKind) (op : Word) (at_ : Nat) : (s.raise k op).readByte at_ = s.readByte at_ := rfl
@[simp] theorem raise_keyDown (s : State) (k : FaultKind) (op : Word) (key : Reg) : (s.raise k op).keyDown key = s.keyDown key := rfl

/-! ### the skip -/

@[simp] theorem skipIf_mem (s : State) (c : Bool) : (s.skipIf c).mem = s.mem := by cases c <;> rfl
@[simp] theorem skipIf_display (s : State) (c : Bool) : (s.skipIf c).display = s.display := by cases c <;> rfl
@[simp] theorem skipIf_v (s : State) (c : Bool) : (s.skipIf c).v = s.v := by cases c <;> rfl
@[simp] theorem skipIf_i (s : State) (c : Bool) : (s.skipIf c).i = s.i := by cases c <;> rfl
@[simp] theorem skipIf_pc (s : State) (c : Bool) : (s.skipIf c).pc = if c then s.pc + 2 else s.pc := by cases c <;> rfl
@[simp] theorem skipIf_stack (s : State) (c : Bool) : (s.skipIf c).stack = s.stack := by cases c <;> rfl
@[simp] theorem skipIf_sp (s : State) (c : Bool) : (s.skipIf c).sp = s.sp := by cases c <;> rfl
@[simp] theorem skipIf_delayTimer (s : State) (c : Bool) : (s.skipIf c).delayTimer = s.delayTimer := by cases c <;> rfl
@[simp] theorem skipIf_soundTimer (s : State) (c : Bool) : (s.skipIf c).soundTimer = s.soundTimer := by cases c <;> rfl
@[simp] theorem skipIf_keypad (s : State) (c : Bool) : (s.skipIf c).keypad = s.keypad := by cases c <;> rfl
@[simp] theorem skipIf_cur (s : State) (c : Bool) : (s.skipIf c).cur = s.cur := by cases c <;> rfl
@[simp] theorem skipIf_runState (s : State) (c : Bool) : (s.skipIf c).runState = s.runState := by cases c <;> rfl
@[simp] theorem skipIf_fault (s : State) (c : Bool) : (s.skipIf c).fault = s.fault := by cases c <;> rfl
@[simp] theorem skipIf_rngDraws (s : State) (c : Bool) : (s.skipIf c).rngDraws = s.rngDraws := by cases c <;> rfl
@[simp] theorem skipIf_getV (s : State) (c : Bool) (r : Reg) : (s.skipIf c).getV r = s.getV r := by cases c <;> rfl
@[simp] theorem skipIf_readByte (s : State) (c : Bool) (at_ : Nat) : (s.skipIf c).readByte at_ = s.readByte at_ := by cases c <;> rfl
@[simp] theorem skipIf_keyDown (s : State) (c : Bool) (key : Reg) : (s.skipIf c).keyDown key = s.keyDown key := by cases c <;> rfl

/-! ### one draw -/

@[simp] theorem drawRandom_mem (s : State) : (s.drawRandom.2).mem = s.mem := rfl
@[simp] theorem drawRandom_display (s : State) : (s.drawRandom.2).display = s.display := rfl
@[simp] theorem drawRandom_v (s : State) : (s.drawRandom.2).v = s.v := rfl
@[simp] theorem drawRandom_i (s : State) : (s.drawRandom.2).i = s.i := rfl
@[simp] theorem drawRandom_pc (s : State) : (s.drawRandom.2).pc = s.pc := rfl
@[simp] theorem drawRandom_stack (s : State) : (s.drawRandom.2).stack = s.stack := rfl
@[simp] theorem drawRandom_sp (s : State) : (s.drawRandom.2).sp = s.sp := rfl
@[simp] theorem drawRandom_delayTimer (s : State) : (s.drawRandom.2).delayTimer = s.delayTimer := rfl
@[simp] theorem drawRandom_soundTimer (s : State) : (s.drawRandom.2).soundTimer = s.soundTimer := rfl
@[simp] theorem drawRandom_keypad (s : State) : (s.drawRandom.2).keypad = s.keypad := rfl
@[simp] theorem drawRandom_cur (s : State) : (s.drawRandom.2).cur = s.cur := rfl
@[simp] theorem drawRandom_runState (s : State) : (s.drawRandom.2).runState = s.runState := rfl
@[simp] theorem drawRandom_fault (s : State) : (s.drawRandom.2).fault = s.fault := rfl
@[simp] theorem drawRandom_rngDraws (s : State) : (s.drawRandom.2).rngDraws = s.rngDraws + 1 := rfl
@[simp] theorem drawRandom_getV (s : State) (r : Reg) : (s.drawRandom.2).getV r = s.getV r := rfl
@[simp] theorem drawRandom_readByte (s : State) (at_ : Nat) : (s.drawRandom.2).readByte at_ = s.readByte at_ := rfl
@[simp] theorem drawRandom_keyDown (s : State) (key : Reg) : (s.drawRandom.2).keyDown key = s.keyDown key := rfl

/-! ### tick_timers -/

@[simp] theorem tickTimers_mem (s : State) : (s.tickTimers).mem = s.mem := rfl
@[simp] theorem tickTimers_display (s : State) : (s.tickTimers).display = s.display := rfl
@[simp] theorem tickTimers_v (s : State) : (s.tickTimers).v = s.v := rfl
@[simp] theorem tickTimers_i (s : State) : (s.tickTimers).i = s.i := rfl
@[simp] theorem tickTimers_pc (s : State) : (s.tickTimers).pc = s.pc := rfl
@[simp] theorem tickTimers_stack (s : State) : (s.tickTimers).stack = s.stack := rfl
@[simp] theorem tickTimers_sp (s : State) : (s.tickTimers).sp = s.sp := rfl
@[simp] theorem tickTimers_delayTimer (s : State) : (s.tickTimers).delayTimer = tickTimer s.delayTimer := rfl
@[simp] theorem tickTimers_soundTimer (s : State) : (s.tickTimers).soundTimer = tickTimer s.soundTimer := rfl
@[simp] theorem tickTimers_keypad (s : State) : (s.tickTimers).keypad = s.keypad := rfl
@[simp] theorem tickTimers_cur (s : State) : (s.tickTimers).cur = s.cur := rfl
@[simp] theorem tickTimers_runState (s : State) : (s.tickTimers).runState = s.runState := rfl
@[simp] theorem tickTimers_fault (s : State) : (s.tickTimers).fault = s.fault := rfl
@[simp] theorem tickTimers_rngDraws (s : State) : (s.tickTimers).rngDraws = s.rngDraws := rfl
@[simp] theorem tickTimers_getV (s : State) (r : Reg) : (s.tickTimers).getV r = s.getV r := rfl
@[simp] theorem tickTimers_readByte (s : State) (at_ : Nat) : (s.tickTimers).readByte at_ = s.readByte at_ := rfl
@[simp] theorem tickTimers_keyDown (s : State) (key : Reg) : (s.tickTimers).keyDown key = s.keyDown key := rfl

/-! ### set_key -/

@[simp] theorem setKey_mem (s : State) (k : Fin 16) (p : Bool) : (s.setKey k p).mem = s.mem := rfl
@[simp] theorem setKey_display (s : State) (k : Fin 16) (p : Bool) : (s.setKey k p).display = s.display := rfl
@[simp] theorem setKey_v (s : State) (k : Fin 16) (p : Bool) : (s.setKey k p).v = s.v := rfl
@[simp] theorem setKey_i (s : State) (k : Fin 16) (p : Bool) : (s.setKey k p).i = s.i := rfl
@[simp] theorem setKey_pc (s : State) (k : Fin 16) (p : Bool) : (s.setKey k p).pc = s.pc := rfl
@[simp] theorem setKey_stack (s : State) (k : Fin 16) (p : Bool) : (s.setKey k p).stack = s.stack := rfl
@[simp] theorem setKey_sp (s : State) (k : Fin 16) (p : Bool) : (s.setKey k p).sp = s.sp := rfl
@[simp] theorem setKey_delayTimer (s : State) (k : Fin 16) (p : Bool) : (s.setKey k p).delayTimer = s.delayTimer := rfl
@[simp] theorem setKey_soundTimer (s : State) (k : Fin 16) (p : Bool) : (s.setKey k p).soundTimer = s.soundTimer := rfl
@[simp] theorem setKey_keypad (s : State) (k : Fin 16) (p : Bool) : (s.setKey k p).keypad = s.keypad.set k.val p := rfl
@[simp] theorem setKey_cur (s : State) (k : Fin 16) (p : Bool) : (s.setKey k p).cur = s.cur := rfl
@[simp] theorem setKey_runState (s : State) (k : Fin 16) (p : Bool) : (s.setKey k p).runState = s.runState := rfl
@[simp] theorem setKey_fault (s : State) (k : Fin 16) (p : Bool) : (s.setKey k p).fault = s.fault := rfl
@[simp] theorem setKey_rngDraws (s : State) (k : Fin 16) (p : Bool) : (s.setKey k p).rngDraws = s.rngDraws := rfl
@[simp] theorem setKey_getV (s : State) (k : Fin 16) (p : Bool) (r : Reg) : (s.setKey k p).getV r = s.getV r := rfl
@[simp] theorem setKey_readByte (s : State) (k : Fin 16) (p : Bool) (at_ : Nat) : (s.setKey k p).readByte at_ = s.readByte at_ := rfl

/-! ### pause and resume touch the run state alone -/

@[simp] theorem pause_mem (s : State) : s.pause.mem = s.mem := by unfold State.pause; split <;> rfl
@[simp] theorem pause_display (s : State) : s.pause.display = s.display := by unfold State.pause; split <;> rfl
@[simp] theorem pause_v (s : State) : s.pause.v = s.v := by unfold State.pause; split <;> rfl
@[simp] theorem pause_i (s : State) : s.pause.i = s.i := by unfold State.pause; split <;> rfl
@[simp] theorem pause_pc (s : State) : s.pause.pc = s.pc := by unfold State.pause; split <;> rfl
@[simp] theorem pause_stack (s : State) : s.pause.stack = s.stack := by unfold State.pause; split <;> rfl
@[simp] theorem pause_sp (s : State) : s.pause.sp = s.sp := by unfold State.pause; split <;> rfl
@[simp] theorem pause_delayTimer (s : State) : s.pause.delayTimer = s.delayTimer := by unfold State.pause; split <;> rfl
@[simp] theorem pause_soundTimer (s : State) : s.pause.soundTimer = s.soundTimer := by unfold State.pause; split <;> rfl
@[simp] theorem pause_keypad (s : State) : s.pause.keypad = s.keypad := by unfold State.pause; split <;> rfl
@[simp] theorem pause_cur (s : State) : s.pause.cur = s.cur := by unfold State.pause; split <;> rfl
@[simp] theorem pause_fault (s : State) : s.pause.fault = s.fault := by unfold State.pause; split <;> rfl
@[simp] theorem pause_rngDraws (s : State) : s.pause.rngDraws = s.rngDraws := by unfold State.pause; split <;> rfl
@[simp] theorem resume_mem (s : State) : s.resume.mem = s.mem := by unfold State.resume; split <;> rfl
@[simp] theorem resume_display (s : State) : s.resume.display = s.display := by unfold State.resume; split <;> rfl
@[simp] theorem resume_v (s : State) : s.resume.v = s.v := by unfold State.resume; split <;> rfl
@[simp] theorem resume_i (s : State) : s.resume.i = s.i := by unfold State.resume; split <;> rfl
@[simp] theorem resume_pc (s : State) : s.resume.pc = s.pc := by unfold State.resume; split <;> rfl
@[simp] theorem resume_stack (s : State) : s.resume.stack = s.stack := by unfold State.resume; split <;> rfl
@[simp] theorem resume_sp (s : State) : s.resume.sp = s.sp := by unfold State.resume; split <;> rfl
@[simp] theorem resume_delayTimer (s : State) : s.resume.delayTimer = s.delayTimer := by unfold State.resume; split <;> rfl
@[simp] theorem resume_soundTimer (s : State) : s.resume.soundTimer = s.soundTimer := by unfold State.resume; split <;> rfl
@[simp] theorem resume_keypad (s : State) : s.resume.keypad = s.keypad := by unfold State.resume; split <;> rfl
@[simp] theorem resume_cur (s : State) : s.resume.cur = s.cur := by unfold State.resume; split <;> rfl
@[simp] theorem resume_fault (s : State) : s.resume.fault = s.fault := by unfold State.resume; split <;> rfl
@[simp] theorem resume_rngDraws (s : State) : s.resume.rngDraws = s.rngDraws := by unfold State.resume; split <;> rfl

end Sys2Proof.Machine
end

