-- ==== Sys2Proof/Laws/Regs.lean ====
section
/-! SUPPORT. The general registers: reads after writes, runs of registers, and what a flag-setting operation leaves. -/

namespace Sys2Proof.Machine

open Sys2Proof

/-- A register read after a register write. -/
theorem getV_setV (s : State) (x r : Reg) (b : Byte) : (s.setV x b).getV r = if r = x then b else s.getV r := by
  simp only [State.getV, State.setV, Vector.getElem_set]
  by_cases h : r = x
  · simp [h]
  · have : x.toNat ≠ r.toNat := fun e => h (BitVec.eq_of_toNat_eq e.symm)
    simp [h, this]

@[simp] theorem getV_setV_self (s : State) (x : Reg) (b : Byte) : (s.setV x b).getV x = b := by simp [getV_setV]

@[simp] theorem getV_setV_ne (s : State) (x r : Reg) (b : Byte) (h : r ≠ x) : (s.setV x b).getV r = s.getV r := by
  simp [getV_setV, h]

/-- Two register files that agree on every register are the same. -/
theorem v_ext (s t : State) (h : ∀ r, t.getV r = s.getV r) : t.v = s.v := by
  ext k hk : 1
  have := h (BitVec.ofNat 4 k)
  simpa [State.getV, Nat.mod_eq_of_lt (show k < 16 from hk)] using this

/-- A run of registers written from number k up: inside the run the byte given, outside it what was there. -/
theorem getV_setRegsFrom (s : State) (k : Nat) (bs : List Byte) (h : k + bs.length ≤ 16) (r : Reg) :
    (s.setRegsFrom k bs).getV r = if k ≤ r.toNat ∧ r.toNat < k + bs.length then bs.getD (r.toNat - k) 0 else s.getV r := by
  induction bs generalizing s k with
  | nil => simp [State.setRegsFrom]
  | cons b bs ih =>
    simp only [List.length_cons] at h
    rw [State.setRegsFrom, ih _ _ (by omega), getV_setV]
    by_cases hr : r.toNat = k
    · have hrk : r = BitVec.ofNat 4 k := by
        apply BitVec.eq_of_toNat_eq
        simp only [BitVec.toNat_ofNat]
        omega
      have h1 : ¬(k + 1 ≤ r.toNat ∧ r.toNat < k + 1 + bs.length) := by omega
      have h2 : k ≤ r.toNat ∧ r.toNat < k + (b :: bs).length := by simp only [List.length_cons]; omega
      rw [if_neg h1, if_pos hrk, if_pos h2, hr, Nat.sub_self, List.getD_cons_zero]
    · have hrk : r ≠ BitVec.ofNat 4 k := by
        intro e
        apply hr
        rw [e, BitVec.toNat_ofNat]
        omega
      by_cases hin : k + 1 ≤ r.toNat ∧ r.toNat < k + 1 + bs.length
      · have h2 : k ≤ r.toNat ∧ r.toNat < k + (b :: bs).length := by simp only [List.length_cons]; omega
        have h3 : r.toNat - k = (r.toNat - (k + 1)) + 1 := by omega
        rw [if_pos hin, if_pos h2, h3, List.getD_cons_succ]
      · have h2 : ¬(k ≤ r.toNat ∧ r.toNat < k + (b :: bs).length) := by simp only [List.length_cons]; omega
        rw [if_neg hin, if_neg h2, if_neg hrk]

/-- Writing a run of registers touches the general registers alone. -/
theorem setRegsFrom_eq (s : State) (k : Nat) (bs : List Byte) :
    s.setRegsFrom k bs = { s with v := (s.setRegsFrom k bs).v } := by
  induction bs generalizing s k with
  | nil => rfl
  | cons b bs ih => rw [State.setRegsFrom, ih]; rfl

/-- The list of the first registers. -/
@[simp] theorem length_firstRegs (s : State) (count : Nat) (h : count ≤ 16) : (s.firstRegs count).length = count := by
  simp [State.firstRegs, h]

theorem getD_firstRegs (s : State) (count : Nat) (r : Reg) (h : r.toNat < count) (d : Byte) :
    (s.firstRegs count).getD r.toNat d = s.getV r := by
  have hr : r.toNat < 16 := r.isLt
  simp [State.firstRegs, State.getV, List.getD_eq_getElem?_getD, h, hr]

/-! ### Flag-setting operations (R120, R121) -/

/-- A flag-setting operation is two register writes: VF, then V[x]. -/
theorem flagOp_eq (mode : AluAlias) (flag : Byte → Byte → Bool) (result : Byte → Byte → Byte) (x y : Reg) (s : State) :
    ∃ b, State.flagOp mode flag result x y s = (s.setV VF (flagByte (flag (s.getV x) (s.getV y)))).setV x b := by
  cases mode <;> exact ⟨_, rfl⟩

/-- With neither operand VF, the two readings give V[x] the result and VF the flag. -/
theorem flagOp_of_ne_VF (mode : AluAlias) (flag : Byte → Byte → Bool) (result : Byte → Byte → Byte) (x y : Reg)
    (s : State) (hx : x ≠ VF) (hy : y ≠ VF) :
    State.flagOp mode flag result x y s =
      (s.setV VF (flagByte (flag (s.getV x) (s.getV y)))).setV x (result (s.getV x) (s.getV y)) := by
  cases mode
  · simp [State.flagOp, getV_setV_ne _ _ _ _ hx, getV_setV_ne _ _ _ _ hy]
  · rfl

theorem flagByte_true : flagByte true = 1 := rfl

theorem flagByte_false : flagByte false = 0 := rfl

end Sys2Proof.Machine
end

