-- ==== Sys2Proof/Laws/Display.lean ====
section
/-! SUPPORT. The framebuffer: a cell read after a cell is set, and what the draw-sprite loops leave, cell by cell. -/

namespace Sys2Proof.Machine

open Sys2Proof

@[simp] theorem pixel_blank (x y : Nat) : Display.blank.pixel x y = false := by
  unfold Display.pixel Display.blank
  split <;> simp

/-- Outside the 64 by 32 cells every cell reads off. -/
theorem pixel_outside (d : Display) (x y : Nat) (h : 64 ≤ x ∨ 32 ≤ y) : d.pixel x y = false := by
  unfold Display.pixel
  split
  · exact BitVec.getLsbD_of_ge _ _ (by omega)
  · rfl

/-- A cell read after a cell is set. -/
theorem pixel_setPixel (d : Display) (x y : Nat) (b : Bool) (hx : x < 64) (hy : y < 32) (x' y' : Nat) :
    (d.setPixel x y b).pixel x' y' = if x' = x ∧ y' = y then b else d.pixel x' y' := by
  unfold Display.setPixel Display.pixel
  rw [dif_pos hy]
  by_cases hy' : y' < 32
  · rw [dif_pos hy', dif_pos hy', Vector.getElem_set]
    by_cases hyy : y = y'
    · subst hyy
      by_cases hxx : x' = x
      · subst hxx
        cases b <;> simp [hx]
      · have : ¬x = x' := fun e => hxx e.symm
        cases b <;> simp [hxx, this]
        intro h
        exact BitVec.lt_of_getLsbD h
    · have : ¬y' = y := fun e => hyy e.symm
      simp [hyy, this]
  · have : ¬y' = y := by omega
    simp [hy', this]

/-- Two displays that agree on every cell are the same. -/
theorem display_ext (d e : Display) (h : ∀ x y, x < 64 → y < 32 → d.pixel x y = e.pixel x y) : d = e := by
  ext y hy x hx
  have := h x y hx hy
  simpa only [Display.pixel, dif_pos hy, BitVec.getLsbD_eq_getElem hx] using this

/-- The loop over the bits of a row: each cell of the row under a bit is XORed with it, up to the right edge. -/
theorem pixel_drawBits (y : Nat) (hy : y < 32) (x : Nat) (bits : List Bool) (acc : Display × Bool) (x' y' : Nat) :
    (drawBits y x bits acc).1.pixel x' y' =
      (acc.1.pixel x' y' ^^
        (if y' = y ∧ x ≤ x' ∧ x' < x + bits.length ∧ x' < 64 then bits.getD (x' - x) false else false)) := by
  induction bits generalizing x acc with
  | nil =>
    have : ¬(y' = y ∧ x ≤ x' ∧ x' < x + ([] : List Bool).length ∧ x' < 64) := by simp only [List.length_nil]; omega
    rw [if_neg this]
    simp [drawBits]
  | cons s bits ih =>
    unfold drawBits
    split
    · have : ¬(y' = y ∧ x ≤ x' ∧ x' < x + (s :: bits).length ∧ x' < 64) := by omega
      rw [if_neg this]
      simp
    · next hx =>
      have hx : x < 64 := by omega
      rw [ih]
      simp only [pixel_setPixel _ _ _ _ hx hy]
      by_cases h0 : x' = x ∧ y' = y
      · obtain ⟨rfl, rfl⟩ := h0
        have h1 : ¬(y' = y' ∧ x' + 1 ≤ x' ∧ x' < x' + 1 + bits.length ∧ x' < 64) := by omega
        have h2 : y' = y' ∧ x' ≤ x' ∧ x' < x' + (s :: bits).length ∧ x' < 64 :=
          ⟨rfl, Nat.le_refl _, by simp only [List.length_cons]; omega, hx⟩
        rw [if_neg h1, if_pos h2]
        simp
      · rw [if_neg h0]
        by_cases h1 : y' = y ∧ x + 1 ≤ x' ∧ x' < x + 1 + bits.length ∧ x' < 64
        · have h2 : y' = y ∧ x ≤ x' ∧ x' < x + (s :: bits).length ∧ x' < 64 := by
            simp only [List.length_cons]; omega
          have h3 : x' - x = (x' - (x + 1)) + 1 := by omega
          rw [if_pos h1, if_pos h2, h3, List.getD_cons_succ]
        · have h2 : ¬(y' = y ∧ x ≤ x' ∧ x' < x + (s :: bits).length ∧ x' < 64) := by
            simp only [List.length_cons]; omega
          rw [if_neg h1, if_neg h2]

/-- The loop over the bits of a row finds a collision exactly where a bit 1, left of the right edge, meets a cell on. -/
theorem collides_drawBits (y : Nat) (hy : y < 32) (x : Nat) (bits : List Bool) (acc : Display × Bool) :
    (drawBits y x bits acc).2 = true ↔
      acc.2 = true ∨ ∃ k, k < bits.length ∧ x + k < 64 ∧ bits.getD k false = true ∧ acc.1.pixel (x + k) y = true := by
  induction bits generalizing x acc with
  | nil => simp [drawBits]
  | cons s bits ih =>
    unfold drawBits
    split
    · next hx =>
      constructor
      · exact Or.inl
      · rintro (h | ⟨k, -, hk, -⟩)
        · exact h
        · omega
    · next hx =>
      have hx : x < 64 := by omega
      rw [ih]
      simp only [pixel_setPixel _ _ _ _ hx hy, Bool.or_eq_true, Bool.and_eq_true]
      constructor
      · rintro ((h | ⟨hs, ho⟩) | ⟨k, hk, hk64, hb, hp⟩)
        · exact Or.inl h
        · exact Or.inr ⟨0, by simp, by omega, by simpa using hs, by simpa using ho⟩
        · rw [if_neg (by omega)] at hp
          refine Or.inr ⟨k + 1, by simp only [List.length_cons]; omega, by omega, by simpa using hb, ?_⟩
          rwa [show x + (k + 1) = x + 1 + k by omega]
      · rintro (h | ⟨k, hk, hk64, hb, hp⟩)
        · exact Or.inl (Or.inl h)
        · cases k with
          | zero => exact Or.inl (Or.inr ⟨by simpa using hb, by simpa using hp⟩)
          | succ k =>
            simp only [List.length_cons] at hk
            refine Or.inr ⟨k, by omega, by omega, by simpa using hb, ?_⟩
            rw [if_neg (by omega)]
            rwa [show x + 1 + k = x + (k + 1) by omega]

theorem length_spriteBits (b : Byte) : (spriteBits b).length = 8 := by simp [spriteBits]

/-- The k-th bit of a sprite row from the left is bit 7 - k of its byte. -/
theorem getD_spriteBits (b : Byte) (k : Nat) (h : k < 8) : (spriteBits b).getD k false = b.getLsbD (7 - k) := by
  simp [spriteBits, List.getD_eq_getElem?_getD, h]

/-- The loop over rows: each cell of the display is XORed with the sprite bit over it. -/
theorem pixel_drawRows (m : Memory) (x0 n y a : Nat) (acc : Display × Bool) (x' y' : Nat) (hx' : x' < 64)
    (hy' : y' < 32) :
    (drawRows m x0 n y a acc).1.pixel x' y' = (acc.1.pixel x' y' ^^ spriteBitAt m x0 y a n x' y') := by
  induction n generalizing y a acc with
  | zero =>
    have : ¬(x0 ≤ x' ∧ x' < x0 + 8 ∧ y ≤ y' ∧ y' < y + 0) := by omega
    rw [spriteBitAt, if_neg this]
    simp [drawRows]
  | succ n ih =>
    unfold drawRows
    split
    · have : ¬(x0 ≤ x' ∧ x' < x0 + 8 ∧ y ≤ y' ∧ y' < y + (n + 1)) := by omega
      rw [spriteBitAt, if_neg this]
      simp
    · next hy =>
      rw [ih, pixel_drawBits y (by omega), length_spriteBits]
      unfold spriteBitAt
      by_cases hyy : y' = y
      · subst hyy
        have h1 : ¬(x0 ≤ x' ∧ x' < x0 + 8 ∧ y' + 1 ≤ y' ∧ y' < y' + 1 + n) := by omega
        rw [if_neg h1, Bool.xor_false]
        by_cases hxx : x0 ≤ x' ∧ x' < x0 + 8
        · rw [if_pos ⟨rfl, hxx.1, hxx.2, hx'⟩, if_pos ⟨hxx.1, hxx.2, by omega, by omega⟩,
            getD_spriteBits _ _ (by omega)]
          simp
        · rw [if_neg (by omega), if_neg (by omega)]
      · rw [if_neg (show ¬(y' = y ∧ x0 ≤ x' ∧ x' < x0 + 8 ∧ x' < 64) by omega), Bool.xor_false]
        by_cases hin : x0 ≤ x' ∧ x' < x0 + 8 ∧ y + 1 ≤ y' ∧ y' < y + 1 + n
        · rw [if_pos hin, if_pos (by omega), show a + 1 + (y' - (y + 1)) = a + (y' - y) by omega]
        · rw [if_neg hin, if_neg (by omega)]

/-- The loop over rows finds a collision exactly where a sprite bit 1 lies over a cell that was on. -/
theorem collides_drawRows (m : Memory) (x0 n y a : Nat) (acc : Display × Bool) :
    (drawRows m x0 n y a acc).2 = true ↔
      acc.2 = true ∨ ∃ x' y', x' < 64 ∧ y' < 32 ∧ spriteBitAt m x0 y a n x' y' = true ∧ acc.1.pixel x' y' = true := by
  induction n generalizing y a acc with
  | zero =>
    have h0 : ∀ x' y', spriteBitAt m x0 y a 0 x' y' = false := fun x' y' => by
      rw [spriteBitAt, if_neg (by omega)]
    simp [drawRows, h0]
  | succ n ih =>
    unfold drawRows
    split
    · next hy =>
      constructor
      · exact Or.inl
      · rintro (h | ⟨x', y', -, hy', hb, -⟩)
        · exact h
        · rw [spriteBitAt, if_neg (by omega)] at hb
          exact absurd hb (by simp)
    · next hy =>
      have hy : y < 32 := by omega
      rw [ih, collides_drawBits y hy, length_spriteBits]
      constructor
      · rintro ((h | ⟨k, hk, hk64, hb, hp⟩) | ⟨x', y', hx', hy', hb, hp⟩)
        · exact Or.inl h
        · refine Or.inr ⟨x0 + k, y, hk64, hy, ?_, hp⟩
          rw [spriteBitAt, if_pos (by omega), show x0 + k - x0 = k by omega, Nat.sub_self, Nat.add_zero]
          rwa [getD_spriteBits _ _ hk] at hb
        · unfold spriteBitAt at hb
          split at hb
          · next hin =>
            rw [pixel_drawBits y hy, if_neg (show ¬(y' = y ∧ x0 ≤ x' ∧ _) by omega), Bool.xor_false] at hp
            refine Or.inr ⟨x', y', hx', hy', ?_, hp⟩
            rw [spriteBitAt, if_pos (by omega), show a + (y' - y) = a + 1 + (y' - (y + 1)) by omega]
            exact hb
          · exact absurd hb (by simp)
      · rintro (h | ⟨x', y', hx', hy', hb, hp⟩)
        · exact Or.inl (Or.inl h)
        · unfold spriteBitAt at hb
          split at hb
          · next hin =>
            by_cases hyy : y' = y
            · subst hyy
              refine Or.inl (Or.inr ⟨x' - x0, by omega, by omega, ?_, ?_⟩)
              · rw [getD_spriteBits _ _ (by omega)]
                simpa using hb
              · rwa [show x0 + (x' - x0) = x' by omega]
            · refine Or.inr ⟨x', y', hx', hy', ?_, ?_⟩
              · rw [spriteBitAt, if_pos (by omega), show a + 1 + (y' - (y + 1)) = a + (y' - y) by omega]
                exact hb
              · rw [pixel_drawBits y hy, if_neg (show ¬(y' = y ∧ x0 ≤ x' ∧ _) by omega), Bool.xor_false]
                exact hp
          · exact absurd hb (by simp)

end Sys2Proof.Machine
end

