-- ==== Sys2Proof/Laws/Memory.lean ====
section
/-! SUPPORT. Memory: a read after a write, bytes read after a run of bytes is stored, and that every memory operation
keeps the canonical form, in which equal contents are equal lists. -/

namespace Sys2Proof.Machine

open Sys2Proof

@[simp] theorem Memory.read_nil (a : Nat) : Memory.read [] a = Memory.resetByte a := rfl

@[simp] theorem inMemory_iff (a : Nat) : inMemory a = true ↔ a < 0x1000 := by simp [inMemory]

/-- Dropping the entries of one address: it reads as reset, the others as before. -/
theorem Memory.read_drop (m : Memory) (a b : Nat) :
    Memory.read (m.filter (fun c => c.1 ≠ a)) b = if b = a then Memory.resetByte b else m.read b := by
  induction m with
  | nil => simp
  | cons c m ih =>
    obtain ⟨k, w⟩ := c
    by_cases hk : k = a
    · subst hk
      simp only [ne_eq, not_true_eq_false, decide_false, Bool.false_eq_true, not_false_eq_true, List.filter_cons_of_neg]
      rw [ih]
      by_cases hb : b = k <;> simp [Memory.read, hb]
    · simp only [ne_eq, hk, not_false_eq_true, decide_true, List.filter_cons_of_pos, Memory.read]
      rw [ih]
      by_cases hbk : b = k
      · subst hbk
        simp [hk]
      · simp [hbk]

/-- Inserting a cell whose address is not listed: it reads as the new byte, the others as before. -/
theorem Memory.read_insert (m : Memory) (a : Nat) (v : Byte) (b : Nat) (h : ∀ c ∈ m, c.1 ≠ a) :
    (Memory.insert m a v).read b = if b = a then v else m.read b := by
  induction m with
  | nil => simp [Memory.insert, Memory.read]
  | cons c m ih =>
    obtain ⟨k, w⟩ := c
    have hk : k ≠ a := h (k, w) (by simp)
    have ih' := ih fun c hc => h c (by simp [hc])
    unfold Memory.insert
    split
    · simp [Memory.read]
    · simp only [Memory.read, ih']
      by_cases hbk : b = k
      · subst hbk
        simp [hk]
      · simp [hbk]

/-- A read after a write, for every memory and every two addresses. -/
theorem Memory.read_write (m : Memory) (a : Nat) (v : Byte) (b : Nat) :
    (m.write a v).read b = if b = a then v else m.read b := by
  unfold Memory.write
  split
  · next hv =>
    rw [Memory.read_drop]
    by_cases hb : b = a
    · subst hb
      simp [hv]
    · simp [hb]
  · rw [Memory.read_insert _ _ _ _ (by intro c hc; simpa using (List.mem_filter.mp hc).2), Memory.read_drop]
    by_cases hb : b = a <;> simp [hb]

/-- A read after a run of bytes is stored: inside the run the byte stored there, outside it what was there. -/
theorem Memory.read_writeBytes (m : Memory) (a : Nat) (bs : List Byte) (b : Nat) :
    (m.writeBytes a bs).read b = if a ≤ b ∧ b < a + bs.length then bs.getD (b - a) 0 else m.read b := by
  induction bs generalizing m a with
  | nil => simp [Memory.writeBytes]
  | cons v vs ih =>
    rw [Memory.writeBytes, ih, Memory.read_write]
    by_cases hb : b = a
    · subst hb
      simp
    · by_cases hin : a + 1 ≤ b ∧ b < a + 1 + vs.length
      · have h1 : a ≤ b ∧ b < a + (v :: vs).length := by simp only [List.length_cons]; omega
        have h2 : b - a = (b - (a + 1)) + 1 := by omega
        rw [if_pos hin, if_pos h1, h2, List.getD_cons_succ]
      · have h1 : ¬(a ≤ b ∧ b < a + (v :: vs).length) := by simp only [List.length_cons]; omega
        rw [if_neg hin, if_neg h1, if_neg hb]

@[simp] theorem Memory.length_readBytes (m : Memory) (a n : Nat) : (m.readBytes a n).length = n := by
  induction n generalizing a with
  | zero => rfl
  | succ n ih => simp [Memory.readBytes, ih]

/-- The k-th of the bytes read from an address up. -/
theorem Memory.getD_readBytes (m : Memory) (a n k : Nat) (h : k < n) (d : Byte) :
    (m.readBytes a n).getD k d = m.read (a + k) := by
  induction n generalizing a k with
  | zero => omega
  | succ n ih =>
    cases k with
    | zero => simp [Memory.readBytes]
    | succ k =>
      rw [Memory.readBytes, List.getD_cons_succ, ih (a + 1) k (by omega)]
      congr 1
      omega

/-! ### The canonical form -/

/-- The canonical form in logic: addresses rise, and each entry is a cell that differs from its reset contents. -/
theorem Memory.wf_iff (m : Memory) :
    m.wf = true ↔ m.Pairwise (fun c d => c.1 < d.1) ∧ ∀ c ∈ m, c.1 < 0x1000 ∧ c.2 ≠ Memory.resetByte c.1 := by
  simp [Memory.wf, inMemory]

theorem Memory.wf_nil : Memory.wf [] = true := by decide

/-- Every entry of an insertion is the new one or an old one. -/
theorem Memory.mem_insert (m : Memory) (a : Nat) (v : Byte) (c : Host.Cell) :
    c ∈ Memory.insert m a v → c = (a, v) ∨ c ∈ m := by
  induction m with
  | nil => simp [Memory.insert]
  | cons d m ih =>
    obtain ⟨k, w⟩ := d
    unfold Memory.insert
    split
    · simp
    · intro h
      rcases List.mem_cons.mp h with h | h
      · simp [h]
      · rcases ih h with h | h <;> simp [h]

theorem Memory.insert_sorted (m : Memory) (a : Nat) (v : Byte) (hm : m.Pairwise (fun c d => c.1 < d.1))
    (ha : ∀ c ∈ m, c.1 ≠ a) : (Memory.insert m a v).Pairwise (fun c d => c.1 < d.1) := by
  induction m with
  | nil => simp [Memory.insert]
  | cons c m ih =>
    obtain ⟨k, w⟩ := c
    rw [List.pairwise_cons] at hm
    have hka : k ≠ a := ha (k, w) (by simp)
    unfold Memory.insert
    split
    · next hlt =>
      rw [List.pairwise_cons, List.pairwise_cons]
      refine ⟨fun d hd => ?_, hm⟩
      rcases List.mem_cons.mp hd with hd | hd
      · subst hd; exact hlt
      · exact Nat.lt_trans hlt (hm.1 d hd)
    · next hge =>
      rw [List.pairwise_cons]
      refine ⟨fun d hd => ?_, ih hm.2 fun c hc => ha c (by simp [hc])⟩
      rcases Memory.mem_insert m a v d hd with hd | hd
      · subst hd
        show k < a
        omega
      · exact hm.1 d hd

/-- A write to a cell of memory keeps the canonical form. -/
theorem Memory.wf_write (m : Memory) (a : Nat) (v : Byte) (hm : m.wf = true) (ha : a < 0x1000) :
    (m.write a v).wf = true := by
  rw [Memory.wf_iff] at hm ⊢
  have hs := List.Pairwise.filter (fun c : Host.Cell => decide (c.1 ≠ a)) hm.1
  have hf : ∀ c ∈ m.filter (fun c => decide (c.1 ≠ a)), c.1 < 0x1000 ∧ c.2 ≠ Memory.resetByte c.1 :=
    fun c hc => hm.2 c (List.mem_filter.mp hc).1
  unfold Memory.write
  split
  · exact ⟨hs, hf⟩
  · next hv =>
    refine ⟨Memory.insert_sorted _ _ _ hs fun c hc => by simpa using (List.mem_filter.mp hc).2, fun c hc => ?_⟩
    rcases Memory.mem_insert _ _ _ _ hc with hc | hc
    · subst hc
      exact ⟨ha, hv⟩
    · exact hf c hc

/-- A run of bytes stored inside memory keeps the canonical form. -/
theorem Memory.wf_writeBytes (m : Memory) (a : Nat) (bs : List Byte) (hm : m.wf = true)
    (ha : a + bs.length ≤ 0x1000) : (m.writeBytes a bs).wf = true := by
  induction bs generalizing m a with
  | nil => exact hm
  | cons v vs ih =>
    simp only [List.length_cons] at ha
    exact ih (m.write a v) (a + 1) (Memory.wf_write m a v hm (by omega)) (by omega)

/-- An address below every listed one reads as reset. -/
theorem Memory.read_of_lt (m : Memory) (a : Nat) (h : ∀ c ∈ m, a < c.1) : m.read a = Memory.resetByte a := by
  induction m with
  | nil => rfl
  | cons c m ih =>
    obtain ⟨k, w⟩ := c
    have hk : a < k := h (k, w) (by simp)
    rw [Memory.read, if_neg (by omega)]
    exact ih fun c hc => h c (by simp [hc])

/-- In the canonical form, memories with the same contents are the same list. -/
theorem Memory.eq_of_read_eq (m n : Memory) (hm : m.wf = true) (hn : n.wf = true)
    (h : ∀ a, m.read a = n.read a) : m = n := by
  rw [Memory.wf_iff] at hm hn
  induction m generalizing n with
  | nil =>
    cases n with
    | nil => rfl
    | cons c n =>
      obtain ⟨k, w⟩ := c
      have hw := (hn.2 (k, w) (by simp)).2
      have hk := h k
      simp only [Memory.read, if_true] at hk
      exact absurd hk.symm hw
  | cons c m ih =>
    obtain ⟨k, w⟩ := c
    have hmk := List.pairwise_cons.mp hm.1
    have hw := (hm.2 (k, w) (by simp)).2
    cases n with
    | nil =>
      have hk := h k
      simp only [Memory.read, if_true] at hk
      exact absurd hk hw
    | cons d n =>
      obtain ⟨l, u⟩ := d
      have hnl := List.pairwise_cons.mp hn.1
      have hu := (hn.2 (l, u) (by simp)).2
      have hkl : k = l := by
        rcases Nat.lt_trichotomy k l with hlt | heq | hgt
        · have hk := h k
          have h2 : Memory.read ((l, u) :: n) k = Memory.resetByte k :=
            Memory.read_of_lt _ _ fun c hc => by
              rcases List.mem_cons.mp hc with hc | hc
              · subst hc; exact hlt
              · exact Nat.lt_trans hlt (hnl.1 c hc)
          rw [h2] at hk
          simp only [Memory.read, if_true] at hk
          exact absurd hk hw
        · exact heq
        · have hl := h l
          have h2 : Memory.read ((k, w) :: m) l = Memory.resetByte l :=
            Memory.read_of_lt _ _ fun c hc => by
              rcases List.mem_cons.mp hc with hc | hc
              · subst hc; exact hgt
              · exact Nat.lt_trans hgt (hmk.1 c hc)
          rw [h2] at hl
          simp only [Memory.read, if_true] at hl
          exact absurd hl.symm hu
      subst hkl
      have hwu := h k
      simp only [Memory.read, if_true] at hwu
      subst hwu
      have htail : m = n := by
        refine ih n ⟨hmk.2, fun c hc => hm.2 c (by simp [hc])⟩ ⟨hnl.2, fun c hc => hn.2 c (by simp [hc])⟩ fun a => ?_
        by_cases hak : a = k
        · subst hak
          rw [Memory.read_of_lt m a hmk.1, Memory.read_of_lt n a hnl.1]
        · have ha := h a
          simpa only [Memory.read, if_neg hak] using ha
      rw [htail]

end Sys2Proof.Machine
end

