-- ==== Sys2Proof/Laws/PerInstr.lean ====
section
/-! SUPPORT. Lemmas made per instruction. Family EncodedByOwnRow: the word of an instruction matches a row of the opcode
map, and that row builds the instruction back from it. -/

namespace Sys2Proof.Laws.EncodedByOwnRow

open Sys2Proof

/-- The instruction's word is one of a row of R75, with every operand in its field. -/
def Statement (i : Instr) : Prop :=
  ∃ r ∈ opcodeTable, r.matchesWord (encode i) = true ∧ r.build (encode i) = i

/-- The k-th row of the opcode map serves an instruction whose word, masked, is the row's match. -/
theorem of_row (i : Instr) (k : Nat) (hk : k < opcodeTable.length) (hm : encode i &&& opcodeTable[k].mask = opcodeTable[k].pattern)
    (hb : opcodeTable[k].build (encode i) = i) : Statement i :=
  ⟨opcodeTable[k], List.getElem_mem hk, by simpa [Row.matchesWord] using hm, hb⟩

theorem cls : Statement .cls := of_row _ 0 (by decide) (by decide) rfl

theorem ret : Statement .ret := of_row _ 1 (by decide) (by decide) rfl

theorem jp (nnn : Addr) : Statement (.jp nnn) :=
  of_row _ 2 (by decide) ((matches_encNNN ..).trans (by decide))
    (congrArg Instr.jp (fieldNNN_encNNN ..))

theorem call (nnn : Addr) : Statement (.call nnn) :=
  of_row _ 3 (by decide) ((matches_encNNN ..).trans (by decide))
    (congrArg Instr.call (fieldNNN_encNNN ..))

theorem seByte (x : Reg) (nn : Byte) : Statement (.seByte x nn) :=
  of_row _ 4 (by decide) ((matches_encXNN ..).trans (by decide))
    (congrArg₂ Instr.seByte (fieldX_encXNN ..) (fieldNN_encXNN ..))

theorem sneByte (x : Reg) (nn : Byte) : Statement (.sneByte x nn) :=
  of_row _ 5 (by decide) ((matches_encXNN ..).trans (by decide))
    (congrArg₂ Instr.sneByte (fieldX_encXNN ..) (fieldNN_encXNN ..))

theorem seReg (x : Reg) (y : Reg) : Statement (.seReg x y) :=
  of_row _ 6 (by decide) ((matches_encXY ..).trans (by decide))
    (congrArg₂ Instr.seReg (fieldX_encXYN ..) (fieldY_encXYN ..))

theorem ldByte (x : Reg) (nn : Byte) : Statement (.ldByte x nn) :=
  of_row _ 7 (by decide) ((matches_encXNN ..).trans (by decide))
    (congrArg₂ Instr.ldByte (fieldX_encXNN ..) (fieldNN_encXNN ..))

theorem addByte (x : Reg) (nn : Byte) : Statement (.addByte x nn) :=
  of_row _ 8 (by decide) ((matches_encXNN ..).trans (by decide))
    (congrArg₂ Instr.addByte (fieldX_encXNN ..) (fieldNN_encXNN ..))

theorem ldReg (x : Reg) (y : Reg) : Statement (.ldReg x y) :=
  of_row _ 9 (by decide) ((matches_encXY ..).trans (by decide))
    (congrArg₂ Instr.ldReg (fieldX_encXYN ..) (fieldY_encXYN ..))

theorem orReg (x : Reg) (y : Reg) : Statement (.orReg x y) :=
  of_row _ 10 (by decide) ((matches_encXY ..).trans (by decide))
    (congrArg₂ Instr.orReg (fieldX_encXYN ..) (fieldY_encXYN ..))

theorem andReg (x : Reg) (y : Reg) : Statement (.andReg x y) :=
  of_row _ 11 (by decide) ((matches_encXY ..).trans (by decide))
    (congrArg₂ Instr.andReg (fieldX_encXYN ..) (fieldY_encXYN ..))

theorem xorReg (x : Reg) (y : Reg) : Statement (.xorReg x y) :=
  of_row _ 12 (by decide) ((matches_encXY ..).trans (by decide))
    (congrArg₂ Instr.xorReg (fieldX_encXYN ..) (fieldY_encXYN ..))

theorem addReg (x : Reg) (y : Reg) : Statement (.addReg x y) :=
  of_row _ 13 (by decide) ((matches_encXY ..).trans (by decide))
    (congrArg₂ Instr.addReg (fieldX_encXYN ..) (fieldY_encXYN ..))

theorem subReg (x : Reg) (y : Reg) : Statement (.subReg x y) :=
  of_row _ 14 (by decide) ((matches_encXY ..).trans (by decide))
    (congrArg₂ Instr.subReg (fieldX_encXYN ..) (fieldY_encXYN ..))

theorem shrReg (x : Reg) (y : Reg) : Statement (.shrReg x y) :=
  of_row _ 15 (by decide) ((matches_encXY ..).trans (by decide))
    (congrArg₂ Instr.shrReg (fieldX_encXYN ..) (fieldY_encXYN ..))

theorem subnReg (x : Reg) (y : Reg) : Statement (.subnReg x y) :=
  of_row _ 16 (by decide) ((matches_encXY ..).trans (by decide))
    (congrArg₂ Instr.subnReg (fieldX_encXYN ..) (fieldY_encXYN ..))

theorem shlReg (x : Reg) (y : Reg) : Statement (.shlReg x y) :=
  of_row _ 17 (by decide) ((matches_encXY ..).trans (by decide))
    (congrArg₂ Instr.shlReg (fieldX_encXYN ..) (fieldY_encXYN ..))

theorem sneReg (x : Reg) (y : Reg) : Statement (.sneReg x y) :=
  of_row _ 18 (by decide) ((matches_encXY ..).trans (by decide))
    (congrArg₂ Instr.sneReg (fieldX_encXYN ..) (fieldY_encXYN ..))

theorem ldI (nnn : Addr) : Statement (.ldI nnn) :=
  of_row _ 19 (by decide) ((matches_encNNN ..).trans (by decide))
    (congrArg Instr.ldI (fieldNNN_encNNN ..))

theorem jpV0 (nnn : Addr) : Statement (.jpV0 nnn) :=
  of_row _ 20 (by decide) ((matches_encNNN ..).trans (by decide))
    (congrArg Instr.jpV0 (fieldNNN_encNNN ..))

theorem rnd (x : Reg) (nn : Byte) : Statement (.rnd x nn) :=
  of_row _ 21 (by decide) ((matches_encXNN ..).trans (by decide))
    (congrArg₂ Instr.rnd (fieldX_encXNN ..) (fieldNN_encXNN ..))

theorem drw (x : Reg) (y : Reg) (n : Nibble) : Statement (.drw x y n) :=
  of_row _ 22 (by decide) ((matches_encXYN ..).trans (by decide)) (congr (congrArg₂ Instr.drw (fieldX_encXYN ..) (fieldY_encXYN ..)) (fieldN_encXYN ..))

theorem skp (x : Reg) : Statement (.skp x) :=
  of_row _ 23 (by decide) ((matches_encX ..).trans (by decide))
    (congrArg Instr.skp (fieldX_encXNN ..))

theorem sknp (x : Reg) : Statement (.sknp x) :=
  of_row _ 24 (by decide) ((matches_encX ..).trans (by decide))
    (congrArg Instr.sknp (fieldX_encXNN ..))

theorem ldVxDT (x : Reg) : Statement (.ldVxDT x) :=
  of_row _ 25 (by decide) ((matches_encX ..).trans (by decide))
    (congrArg Instr.ldVxDT (fieldX_encXNN ..))

theorem ldVxK (x : Reg) : Statement (.ldVxK x) :=
  of_row _ 26 (by decide) ((matches_encX ..).trans (by decide))
    (congrArg Instr.ldVxK (fieldX_encXNN ..))

theorem ldDTVx (x : Reg) : Statement (.ldDTVx x) :=
  of_row _ 27 (by decide) ((matches_encX ..).trans (by decide))
    (congrArg Instr.ldDTVx (fieldX_encXNN ..))

theorem ldSTVx (x : Reg) : Statement (.ldSTVx x) :=
  of_row _ 28 (by decide) ((matches_encX ..).trans (by decide))
    (congrArg Instr.ldSTVx (fieldX_encXNN ..))

theorem addIVx (x : Reg) : Statement (.addIVx x) :=
  of_row _ 29 (by decide) ((matches_encX ..).trans (by decide))
    (congrArg Instr.addIVx (fieldX_encXNN ..))

theorem ldFVx (x : Reg) : Statement (.ldFVx x) :=
  of_row _ 30 (by decide) ((matches_encX ..).trans (by decide))
    (congrArg Instr.ldFVx (fieldX_encXNN ..))

theorem ldBVx (x : Reg) : Statement (.ldBVx x) :=
  of_row _ 31 (by decide) ((matches_encX ..).trans (by decide))
    (congrArg Instr.ldBVx (fieldX_encXNN ..))

theorem storeRegs (x : Reg) : Statement (.storeRegs x) :=
  of_row _ 32 (by decide) ((matches_encX ..).trans (by decide))
    (congrArg Instr.storeRegs (fieldX_encXNN ..))

theorem loadRegs (x : Reg) : Statement (.loadRegs x) :=
  of_row _ 33 (by decide) ((matches_encX ..).trans (by decide))
    (congrArg Instr.loadRegs (fieldX_encXNN ..))

end Sys2Proof.Laws.EncodedByOwnRow
end

