-- ==== Sys2Proof/Laws/Step.lean ====
section
/-! SUPPORT. What the shared operations can do, said once: the return stack, the fetch, and one step. -/

namespace Sys2Proof.Machine

open Sys2Proof

/-! ### The return stack (R27) -/

theorem push_eq_none_iff (s : State) (w : Word) : s.push w = none ↔ s.sp.val = 12 := by
  have := s.sp.isLt
  unfold State.push
  split <;> simp <;> omega

/-- A push that succeeds: the new top, the entries below it, and nothing else of the state. -/
theorem push_spec (s t : State) (w : Word) (h : s.push w = some t) :
    s.sp.val < 12 ∧ t.sp.val = s.sp.val + 1 ∧
      (∀ k, k < 12 → t.stack.toList.getD k 0 = if k = s.sp.val then w else s.stack.toList.getD k 0) ∧
      t = { s with stack := t.stack, sp := t.sp } := by
  unfold State.push at h
  split at h
  · next hs =>
    cases h
    refine ⟨hs, rfl, fun k hk => ?_, rfl⟩
    have hl : (s.stack.set s.sp.val w hs).toList.getD k 0 = (s.stack.set s.sp.val w hs)[k] := by
      simp [List.getD_eq_getElem?_getD, hk]
    have hr : s.stack.toList.getD k 0 = s.stack[k] := by
      simp [List.getD_eq_getElem?_getD, hk]
    rw [hl, hr, Vector.getElem_set]
    by_cases hks : k = s.sp.val
    · simp [hks]
    · have : ¬s.sp.val = k := fun e => hks e.symm
      simp [hks, this]
  · cases h

theorem pop_eq_none_iff (s : State) : s.pop = none ↔ s.sp.val = 0 := by
  unfold State.pop
  split <;> simp <;> omega

/-- A pop that succeeds: the top entry, the cursor one lower, the slots as they were. -/
theorem pop_spec (s t : State) (w : Word) (h : s.pop = some (w, t)) :
    0 < s.sp.val ∧ w = s.topOfStack ∧ t.sp.val = s.sp.val - 1 ∧ t = { s with sp := t.sp } := by
  unfold State.pop at h
  split at h
  · next hs =>
    cases h
    refine ⟨hs, ?_, rfl, rfl⟩
    have : s.sp.val - 1 < 12 := by omega
    simp [State.topOfStack, List.getD_eq_getElem?_getD, this]
  · cases h

/-! ### The fetch (R53, R54, R91) -/

theorem fetchWord_eq_none_iff (s : State) : s.fetchWord = none ↔ 0x1000 ≤ s.pc.toNat + 1 := by
  simp [State.fetchWord]

theorem fetchWord_of_lt (s : State) (h : s.pc.toNat + 1 < 0x1000) :
    s.fetchWord = some (wordOfBytes (s.readByte s.pc.toNat) (s.readByte (s.pc.toNat + 1))) := by
  simp [State.fetchWord, h]

/-! ### One step -/

theorem step_of_running (s : State) (h : s.runState = .running) : step s = stepRunning s := by
  simp [step, h]

theorem step_of_not_running (s : State) (h : s.runState ≠ .running) : step s = .next s := by
  unfold step
  split
  · next hr => exact absurd hr h
  · rfl
  · rfl

/-- What one step can do when it answers a next state. -/
theorem step_cases (s t : State) (h : step s = .next t) :
    (s.runState ≠ .running ∧ t = s) ∨
    (s.runState = .running ∧ s.fetchWord = none ∧ t = s.raise .fetchOutOfRange 0x0000) ∨
    (s.runState = .running ∧ ∃ op i, s.fetchWord = some op ∧ decode op = .instr i ∧ exec i s = .next t) ∨
    (s.runState = .running ∧ ∃ op space, s.fetchWord = some op ∧ decode op = .noOp space ∧ t = s.stage op) := by
  by_cases hr : s.runState = .running
  · rw [step_of_running s hr] at h
    unfold stepRunning at h
    split at h
    · next hf => cases h; exact Or.inr (Or.inl ⟨hr, hf, rfl⟩)
    · next op hf =>
      split at h
      · next i hd => exact Or.inr (Or.inr (Or.inl ⟨hr, op, i, hf, hd, h⟩))
      · next space hd => cases h; exact Or.inr (Or.inr (Or.inr ⟨hr, op, space, hf, hd, rfl⟩))
  · rw [step_of_not_running s hr] at h
    cases h
    exact Or.inl ⟨hr, rfl⟩

end Sys2Proof.Machine
end

