-- ==== Sys2Proof/Tests/Slice0.lean ====
section
/-! SUPPORT. Tests: the well-formedness checks refuse, words written out from the layouts decode, and one step on a small
state gives what the spec's own vectors say (spec 95_test_vectors.md, named beside each test). Witnesses: for every
statement with hypotheses, states and operands that meet them. -/

namespace Sys2Proof.Tests

open Sys2Proof Sys2Proof.Machine

/-! ### WellFormed refuses -/

theorem test_wf_image_of_3585_bytes_refused : imageWellFormed (List.replicate 3585 0) = false := by
  simp only [imageWellFormed, List.length_replicate]; decide

theorem test_wf_image_of_3584_bytes_taken : imageWellFormed (List.replicate 3584 0) = true := by
  simp only [imageWellFormed, List.length_replicate]; decide

theorem test_wf_key_16_refused : keyWellFormed 16 = false := by decide

theorem test_wf_host_op_refused : (HostOp.setKey 16 true).wellFormed = false := by decide

theorem test_wf_table_word_of_17_bits_refused : tableWordWellFormed 17 0 = false := by decide

theorem test_wf_table_word_outside_its_bits_refused : tableWordWellFormed 16 0x10000 = false := by decide

/-! ### Decoding: one word per constructor, its bits written out from the layout of R73 and R75 -/

theorem test_decode_cls : decode 0b0000000011100000 = .instr (.cls) := by decide

theorem test_decode_ret : decode 0b0000000011101110 = .instr (.ret) := by decide

theorem test_decode_jp : decode 0b0001001000110100 = .instr (.jp 0x234) := by decide

theorem test_decode_call : decode 0b0010001100000000 = .instr (.call 0x300) := by decide

theorem test_decode_seByte : decode 0b0011001101000010 = .instr (.seByte 3 0x42) := by decide

theorem test_decode_sneByte : decode 0b0100001101000010 = .instr (.sneByte 3 0x42) := by decide

theorem test_decode_seReg : decode 0b0101000100100000 = .instr (.seReg 1 2) := by decide

theorem test_decode_ldByte : decode 0b0110101001000010 = .instr (.ldByte 0xA 0x42) := by decide

theorem test_decode_addByte : decode 0b0111111111111111 = .instr (.addByte 0xF 0xFF) := by decide

theorem test_decode_ldReg : decode 0b1000000100100000 = .instr (.ldReg 1 2) := by decide

theorem test_decode_orReg : decode 0b1000000100100001 = .instr (.orReg 1 2) := by decide

theorem test_decode_andReg : decode 0b1000000100100010 = .instr (.andReg 1 2) := by decide

theorem test_decode_xorReg : decode 0b1000000100100011 = .instr (.xorReg 1 2) := by decide

theorem test_decode_addReg : decode 0b1000111100100100 = .instr (.addReg 0xF 2) := by decide

theorem test_decode_subReg : decode 0b1000000111110101 = .instr (.subReg 1 0xF) := by decide

theorem test_decode_shrReg : decode 0b1000000100100110 = .instr (.shrReg 1 2) := by decide

theorem test_decode_subnReg : decode 0b1000000100100111 = .instr (.subnReg 1 2) := by decide

theorem test_decode_shlReg : decode 0b1000000100101110 = .instr (.shlReg 1 2) := by decide

theorem test_decode_sneReg : decode 0b1001000100100000 = .instr (.sneReg 1 2) := by decide

theorem test_decode_ldI : decode 0b1010000100100011 = .instr (.ldI 0x123) := by decide

theorem test_decode_jpV0 : decode 0b1011001100000000 = .instr (.jpV0 0x300) := by decide

theorem test_decode_rnd : decode 0b1100001100001111 = .instr (.rnd 3 0x0F) := by decide

theorem test_decode_drw : decode 0b1101000100100101 = .instr (.drw 1 2 5) := by decide

theorem test_decode_skp : decode 0b1110000110011110 = .instr (.skp 1) := by decide

theorem test_decode_sknp : decode 0b1110000110100001 = .instr (.sknp 1) := by decide

theorem test_decode_ldVxDT : decode 0b1111001000000111 = .instr (.ldVxDT 2) := by decide

theorem test_decode_ldVxK : decode 0b1111001100001010 = .instr (.ldVxK 3) := by decide

theorem test_decode_ldDTVx : decode 0b1111000000010101 = .instr (.ldDTVx 0) := by decide

theorem test_decode_ldSTVx : decode 0b1111000100011000 = .instr (.ldSTVx 1) := by decide

theorem test_decode_addIVx : decode 0b1111001000011110 = .instr (.addIVx 2) := by decide

theorem test_decode_ldFVx : decode 0b1111000000101001 = .instr (.ldFVx 0) := by decide

theorem test_decode_ldBVx : decode 0b1111000000110011 = .instr (.ldBVx 0) := by decide

theorem test_decode_storeRegs : decode 0b1111001101010101 = .instr (.storeRegs 3) := by decide

theorem test_decode_loadRegs : decode 0b1111001001100101 = .instr (.loadRegs 2) := by decide

theorem test_decode_01E0_is_noOp : decode 0x01E0 = .noOp .family0 := by decide

theorem test_decode_5121_is_noOp : decode 0x5121 = .noOp .family5 := by decide

theorem test_decode_8008_is_noOp : decode 0x8008 = .noOp .family8 := by decide

theorem test_decode_9121_is_noOp : decode 0x9121 = .noOp .family9 := by decide

theorem test_decode_E000_is_noOp : decode 0xE000 = .noOp .familyE := by decide

theorem test_decode_F0FF_is_noOp : decode 0xF0FF = .noOp .familyF := by decide

theorem test_decodeBytes_high_byte_first : decodeBytes [0x12, 0x34, 0x56] = .ok (.instr (.jp 0x234), [0x56]) := rfl

theorem test_decodeBytes_truncated : decodeBytes [0x12] = .error .truncated := rfl

theorem test_decodeTableWord_jp : decodeTableWord 16 0x1234 = some (.jp 0x234) := by decide

theorem test_decodeTableWord_noOp_refused : decodeTableWord 16 0x01E0 = none := by decide

/-! ### One step -/

/-- The reset state with some registers set. -/
def withV (vs : List (Reg × Byte)) : State := vs.foldl (fun s p => s.setV p.1 p.2) State.reset

/-- What one step leaves, seen through `f`: the given word stands at PC. -/
def after {α : Type} (w : Nat) (s : State) (f : State → α) : Option α :=
  match step (s.withFetchWord 16 w) with
  | .next t => some (f t)
  | .fault _ => none
  | .refused _ => none

/-- PC and current opcode after a step. -/
def pcOf (s : State) : Word := s.pc

/-- The register x and VF. -/
def vAndVF (x : Reg) (s : State) : Byte × Byte := (s.getV x, s.getV VF)

/-- The run state and the fault record. -/
def haltOf (s : State) : RunState × Option FaultRecord := (s.runState, s.fault)

/-- V-CLS-1. -/
theorem test_cls : after 0x00E0 ((withV [(VF, 1)]).setDisplay (Display.blank.setPixel 63 31 true)) (fun t => (t.display.pixel 63 31, t.getV VF)) = some (false, 1) := by decide

/-- V-CF-5. -/
theorem test_ret_underflow : after 0x00EE State.reset (fun t => (haltOf t, t.pc)) = some ((.halted, some ⟨.stackUnderflow, 0x200, 0x00EE⟩), 0x200) := by decide

/-- R102. -/
theorem test_ret_pops : after 0x00EE { State.reset with sp := 1, stack := State.reset.stack.set 0 0x0206 } (fun t => (t.pc, t.sp, t.stack[0])) = some (0x206, 0, 0x206) := by decide

/-- V-CF-1. -/
theorem test_jp : after 0x1ABC State.reset pcOf = some 0xABC := by decide

/-- V-CYC-1. -/
theorem test_jp_records_fields : after 0x1234 State.reset (fun t => t.cur) = some ⟨0x1234, 0x234, 0x34, 4, 2, 3⟩ := by decide

/-- V-CF-3. -/
theorem test_call : after 0x2300 State.reset (fun t => (t.stack[0], t.sp, t.pc)) = some (0x202, 1, 0x300) := by decide

/-- P5. -/
theorem test_call_overflow : after 0x2200 { State.reset with sp := 12 } (fun t => (haltOf t, t.pc, t.sp)) = some ((.halted, some ⟨.stackOverflow, 0x200, 0x2200⟩), 0x200, 12) := by decide

/-- V-CF-6. -/
theorem test_seByte_taken : after 0x3342 (withV [(3, 0x42)]) pcOf = some 0x204 := by decide

/-- V-CF-7. -/
theorem test_seByte_not_taken : after 0x3342 (withV [(3, 0x41)]) pcOf = some 0x202 := by decide

/-- V-CF-8. -/
theorem test_sneByte_taken : after 0x4342 (withV [(3, 0x41)]) pcOf = some 0x204 := by decide

/-- V-CF-9. -/
theorem test_sneByte_not_taken : after 0x4342 (withV [(3, 0x42)]) pcOf = some 0x202 := by decide

/-- V-CF-10. -/
theorem test_seReg_taken : after 0x5120 (withV [(1, 7), (2, 7)]) pcOf = some 0x204 := by decide

/-- V-CF-11. -/
theorem test_seReg_not_taken : after 0x5120 (withV [(1, 7), (2, 8)]) pcOf = some 0x202 := by decide

/-- V-CF-12. -/
theorem test_sneReg_taken : after 0x9120 (withV [(1, 7), (2, 8)]) pcOf = some 0x204 := by decide

/-- V-CF-13. -/
theorem test_sneReg_not_taken : after 0x9120 (withV [(1, 7), (2, 7)]) pcOf = some 0x202 := by decide

/-- V-CF-16. -/
theorem test_jpV0 : after 0xBFFF (withV [(0, 0xFF), (5, 1)]) pcOf = some 0x10FE := by decide

/-- V-ALU-1. -/
theorem test_ldByte : after 0x6A42 State.reset (fun t => t.getV 0xA) = some 0x42 := by decide

/-- V-ALU-2. -/
theorem test_addByte_wraps : after 0x7001 (withV [(0, 0xFF), (VF, 0x55)]) (vAndVF 0) = some (0x00, 0x55) := by decide

/-- V-ALU-4. -/
theorem test_ldReg : after 0x8120 (withV [(1, 0x12), (2, 0x34)]) (fun t => (t.getV 1, t.getV 2)) = some (0x34, 0x34) := by decide

/-- V-ALU-5. -/
theorem test_orReg : after 0x8121 (withV [(1, 0xF0), (2, 0x3C), (VF, 0x77)]) (vAndVF 1) = some (0xFC, 0x77) := by decide

/-- V-ALU-6. -/
theorem test_andReg : after 0x8122 (withV [(1, 0xF0), (2, 0x3C), (VF, 0x77)]) (vAndVF 1) = some (0x30, 0x77) := by decide

/-- V-ALU-7. -/
theorem test_xorReg : after 0x8123 (withV [(1, 0xF0), (2, 0x3C), (VF, 0x77)]) (vAndVF 1) = some (0xCC, 0x77) := by decide

/-- V-ALU-9. -/
theorem test_addReg_carries : after 0x8124 (withV [(1, 0xFF), (2, 0x01)]) (vAndVF 1) = some (0x00, 1) := by decide

/-- V-ALU-12. -/
theorem test_addReg_into_VF : after 0x8F24 (withV [(VF, 0x90), (2, 0x80)]) (fun t => t.getV VF) = some 0x10 := by decide

/-- V-ALU-14. -/
theorem test_subReg_borrows : after 0x8125 (withV [(1, 3), (2, 5)]) (vAndVF 1) = some (0xFE, 0) := by decide

/-- V-ALU-16. -/
theorem test_subReg_by_VF : after 0x81F5 (withV [(1, 5), (VF, 3)]) (vAndVF 1) = some (4, 1) := by decide

/-- V-ALU-19. -/
theorem test_shrReg_ignores_Y : after 0x8126 (withV [(1, 5), (2, 0xAA)]) (vAndVF 1) = some (2, 1) := by decide

/-- V-ALU-21. -/
theorem test_shrReg_VF : after 0x8F06 (withV [(VF, 5)]) (fun t => t.getV VF) = some 0 := by decide

/-- V-ALU-23. -/
theorem test_subnReg : after 0x8127 (withV [(1, 5), (2, 3)]) (vAndVF 1) = some (0xFE, 0) := by decide

/-- V-ALU-26. -/
theorem test_subnReg_into_VF : after 0x8F27 (withV [(VF, 2), (2, 9)]) (fun t => t.getV VF) = some 8 := by decide

/-- V-ALU-27. -/
theorem test_shlReg : after 0x810E (withV [(1, 0x81)]) (vAndVF 1) = some (2, 1) := by decide

/-- V-ALU-29. -/
theorem test_shlReg_VF : after 0x8F0E (withV [(VF, 0xC0)]) (fun t => t.getV VF) = some 2 := by decide

/-- V-ALU-32. -/
theorem test_rnd_consumes_one_draw : after 0xC300 (withV [(3, 9)]) (fun t => t.rngDraws) = some 1 := by decide

/-- V-IM-1. -/
theorem test_ldI : after 0xA123 State.reset (fun t => t.i) = some 0x123 := by decide

/-- V-IM-3. -/
theorem test_addIVx_wraps : after 0xF01E ((withV [(0, 2)]).setI 0xFFFF) (fun t => (t.i, t.getV VF)) = some (1, 0) := by decide

/-- V-IM-5. -/
theorem test_ldFVx_whole_byte : after 0xF029 (withV [(0, 0xFF)]) (fun t => t.i) = some 0x4FB := by decide

/-- V-IM-10. -/
theorem test_ldBVx_at_the_top : after 0xF033 ((withV [(0, 0x7B)]).setI 0xFFD) (fun t => (t.readByte 0xFFD, t.readByte 0xFFE, t.readByte 0xFFF)) = some (1, 2, 3) := by decide

/-- V-IM-11. -/
theorem test_ldBVx_past_the_top : after 0xF033 ((withV [(0, 0x7B)]).setI 0xFFE) (fun t => (haltOf t, t.readByte 0xFFE)) = some ((.halted, some ⟨.dataOutOfRange, 0x200, 0xF033⟩), 0) := by decide

/-- V-IM-12. -/
theorem test_storeRegs : after 0xF355 ((withV [(0, 1), (1, 2), (2, 3), (3, 4)]).setI 0x300) (fun t => (t.mem.readBytes 0x300 5, t.i)) = some ([1, 2, 3, 4, 0], 0x300) := by decide

/-- V-IM-15. -/
theorem test_storeRegs_past_the_top : after 0xFF55 (State.reset.setI 0xFF1) haltOf = some (.halted, some ⟨.dataOutOfRange, 0x200, 0xFF55⟩) := by decide

/-- V-IM-16. -/
theorem test_loadRegs : after 0xF265 (((withV [(3, 0x11)]).setI 0x300).writeBytes 0x300 [0xAA, 0xBB, 0xCC, 0xDD]) (fun t => t.firstRegs 4) = some [0xAA, 0xBB, 0xCC, 0x11] := by decide

/-- V-IM-17. -/
theorem test_loadRegs_VF : after 0xFF65 ((State.reset.setI 0x300).writeBytes 0x30F [0x0F]) (fun t => t.getV VF) = some 0x0F := by decide +kernel

/-- R171, R172: the sprite FF at (60, 0) with cell (63, 0) on, its columns 64 to 67 dropped. -/
theorem test_drw_clips_right_and_collides : after 0xD011 (((withV [(0, 60)]).setI 0x300).writeBytes 0x300 [0xFF] |>.setDisplay (Display.blank.setPixel 63 0 true)) (fun t => (t.display[0], t.getV VF)) = some (0x7000000000000000, 1) := by decide

/-- V-DXYN-5. -/
theorem test_drw_clipped_row_not_read : after 0xD015 (((withV [(1, 30)]).setI 0xFFE).writeBytes 0xFFE [0x80, 0x80]) (fun t => (t.runState, t.display.pixel 0 30, t.display.pixel 0 31)) = some (.running, true, true) := by decide +kernel

/-- V-KEY-1. -/
theorem test_skp_taken : after 0xE09E ((withV [(0, 5)]).setKey 5 true) pcOf = some 0x204 := by decide

/-- V-KEY-5. -/
theorem test_skp_number_past_15 : after 0xE09E (withV [(0, 0x10)]) (fun t => (haltOf t, t.pc)) = some ((.halted, some ⟨.keyIndexOutOfRange, 0x200, 0xE09E⟩), 0x200) := by decide

/-- V-KEY-4. -/
theorem test_sknp_not_taken : after 0xE0A1 ((withV [(0, 5)]).setKey 5 true) pcOf = some 0x202 := by decide

/-- V-KEY-6. -/
theorem test_sknp_number_past_15 : after 0xE0A1 (withV [(0, 0xFF)]) haltOf = some (.halted, some ⟨.keyIndexOutOfRange, 0x200, 0xE0A1⟩) := by decide

/-- V-KEY-7. -/
theorem test_ldVxK_waits : after 0xF30A (withV [(3, 9)]) (fun t => (t.pc, t.getV 3)) = some (0x200, 9) := by decide

/-- V-KEY-8. -/
theorem test_ldVxK_takes_the_lowest : after 0xF30A ((State.reset.setKey 7 true).setKey 3 true) (fun t => (t.pc, t.getV 3)) = some (0x202, 3) := by decide

/-- V-TMR-2. -/
theorem test_ldVxDT : after 0xF507 (State.reset.setDelayTimer 0x2A) (fun t => t.getV 5) = some 0x2A := by decide

/-- V-TMR-1. -/
theorem test_ldDTVx : after 0xF015 (withV [(0, 0x3C)]) (fun t => (t.delayTimer, t.soundTimer)) = some (60, 0) := by decide

/-- V-TMR-3. -/
theorem test_ldSTVx : after 0xF018 (withV [(0, 0x02)]) (fun t => (t.soundTimer, t.tone)) = some (2, true) := by decide

/-- V-CYC-2. -/
theorem test_noOp_word : after 0x0000 State.reset (fun t => (t.pc, t.runState)) = some (0x202, .running) := by decide

/-- V-CYC-8: a Paused machine fetches nothing. -/
theorem test_paused_step_holds : step State.reset.pause = .next State.reset.pause := rfl

/-- V-CYC-11: a fetch at 0xFFF. -/
theorem test_fetch_past_the_top :
    (match step (State.reset.setPc 0xFFF) with | .next t => some (haltOf t, t.pc) | _ => none) =
      some ((.halted, some ⟨.fetchOutOfRange, 0x0FFF, 0x0000⟩), 0xFFF) := by decide

/-- V-CYC-12: a fetch at an odd PC. -/
theorem test_odd_fetch :
    (((State.reset.writeBytes 0x200 [0x12, 0x01, 0x60, 0x00]).setPc 0x201).fetchWord) = some 0x0160 := by decide

/-- V-TMR-4. -/
theorem test_tick : (((State.reset.setDelayTimer 1).setSoundTimer 2).tickTimers).soundTimer = 1 := by decide

/-- V-TMR-5. -/
theorem test_tick_at_zero : State.reset.tickTimers.delayTimer = 0 := by decide

/-- V-RUN-3 and V-RUN-4. -/
theorem test_ignored_requests : State.reset.resume.runState = .running ∧
    (State.reset.raise .stackOverflow 0).pause.runState = .halted := by decide

/-- V-RST-1. -/
theorem test_construct :
    (match construct [0xAB, 0xCD] with | .next m => some (m.mem.readBytes 0x1FF 4, m.readByte 0x4F) | _ => none) =
      some ([0, 0xAB, 0xCD, 0], 0x80) := by decide

/-- R30: the glyph of digit A. -/
theorem test_font_glyph_A : State.reset.mem.readBytes 0x32 5 = [0xF0, 0x90, 0xF0, 0x90, 0x90] := by decide

/-- Writing back what reset left removes the entry: equal memories are equal lists. -/
theorem test_memory_canonical :
    (((State.reset.writeBytes 0x10 [1]).writeBytes 0x300 [7]).writeBytes 0x10 [0x10]).mem = [(0x300, 7)] := by decide

/-! ### Witnesses: the hypotheses of the statements can be met together, clause by clause -/

theorem witness_EncodeGivesBackTheDecoded : decode 0xD125 = .instr (.drw 1 2 5) := by decide

theorem witness_OpcodeMapSelectsOneRow :
    ∃ (j : Nat) (hj : j < opcodeTable.length), (0xF265 : Word) &&& opcodeTable[j].mask = opcodeTable[j].pattern :=
  ⟨33, by decide, by decide⟩

theorem witness_StepRunsTheDecodedInstruction :
    let s := State.reset.withFetchWord 16 0x1234
    s.runState = .running ∧ s.pc.toNat + 1 < 0x1000 ∧
      decode (wordOfBytes (s.readByte s.pc.toNat) (s.readByte (s.pc.toNat + 1))) = .instr (.jp 0x234) := by decide

theorem witness_NoOpWordOnlyStages :
    State.reset.runState = .running ∧ State.reset.fetchWord = some 0x0000 ∧
      ∀ r ∈ opcodeTable, (0x0000 : Word) &&& r.mask ≠ r.pattern := by decide

theorem witness_StepHoldsUnlessRunning :
    State.reset.pause.runState ≠ .running ∧ (State.reset.raise .stackOverflow 0).runState ≠ .running := by decide

theorem witness_FetchPastMemoryFaults :
    (State.reset.setPc 0xFFF).runState = .running ∧ 0x1000 ≤ (State.reset.setPc 0xFFF).pc.toNat + 1 := by decide

/-- A step that faults: it meets the hypotheses of FaultsArePrecise. -/
theorem witness_FaultsArePrecise :
    ∃ t, step (State.reset.withFetchWord 16 0x00EE) = .next t ∧ t.runState = .halted := ⟨_, rfl, by decide⟩

/-- One state that faults and one that does not: the two clauses of StepFaultsExactlyAsTabled. -/
theorem witness_StepFaultsExactlyAsTabled :
    (State.reset.withFetchWord 16 0x00EE).fetchWord = some 0x00EE ∧ decode 0x00EE = .instr .ret ∧
      faultOf .ret State.reset = some .stackUnderflow ∧ faultOf (.call 0x300) State.reset = none := by decide

theorem witness_HaltedIsTerminal : (State.reset.raise .stackUnderflow 0x00EE).runState = .halted := by decide

/-- The four clauses of ProgramCounterAfterStep: Paused, no fetch, a no-op word, an instruction. -/
theorem witness_ProgramCounterAfterStep :
    State.reset.pause.runState ≠ .running ∧
    ((State.reset.setPc 0x1000).runState = .running ∧ (State.reset.setPc 0x1000).fetchWord = none) ∧
    (State.reset.fetchWord = some 0 ∧ decode 0 = .noOp .family0) ∧
    ((State.reset.withFetchWord 16 0x2300).fetchWord = some 0x2300 ∧ decode 0x2300 = .instr (.call 0x300)) := by decide

theorem witness_CurrentInstructionRecordsTheFetch :
    State.reset.fetchWord = some 0 ∧ ∃ t, step State.reset = .next t ∧ t.runState = .running :=
  ⟨by decide, _, rfl, by decide⟩

/-- The reset state meets the invariant that StepKeepsInvariant and HostOperationsKeepInvariant assume: its parts. -/
theorem witness_invariant_parts :
    State.reset.mem.wf = true ∧ State.reset.cur = fieldsOf State.reset.cur.opcode ∧ State.reset.fault = none ∧
      State.reset.pc.toNat ≤ 0x10FE ∧ State.reset.sp = 0 := by decide

/-- A state with one return address, about to run CLS at 0x200, meets the invariant and takes a step. -/
theorem witness_StepKeepsInvariant :
    let s := ({ State.reset with sp := 1, stack := State.reset.stack.set 0 0x1000 } : State).withFetchWord 16 0x00E0
    s.Inv ∧ ∃ t, step s = .next t :=
  ⟨⟨by decide, by decide, by decide, fun _ h => (by cases h), by decide, by decide⟩, _, rfl⟩

/-- A Halted state meets it too, its record naming the instruction at PC: a fetch past memory. -/
theorem witness_StepKeepsInvariant_halted :
    ((State.reset.setPc 0x10FE).raise .fetchOutOfRange 0).Inv :=
  ⟨by decide, by decide, by decide, fun _ h => (by cases h; decide), by decide, by decide⟩

theorem witness_HostOperationsKeepInvariant : ∃ m, construct [0x12, 0x00] = .next m := ⟨_, rfl⟩

theorem witness_EveryInstructionKeepsItsFrame : ∃ t, exec (.ldBVx 0) (State.reset.setI 0x300) = .next t := ⟨_, rfl⟩

/-- A step that stores at the lowest address the premise allows. -/
theorem witness_ReservedBytesKeptUnderThePremise :
    let s := (State.reset.setI 0x200).withFetchWord 16 0xF033
    s.noReservedWrite ∧ ∃ t, step s = .next t :=
  ⟨fun _ _ => by decide, _, rfl⟩

/-- Return, call, and the two limits: SP 1 and 12 for a return, 0 and 11 for a call, 12 and 0 where they fault. -/
theorem witness_stack_statements :
    0 < ({ State.reset with sp := 1 } : State).sp.val ∧ 0 < ({ State.reset with sp := 12 } : State).sp.val ∧
      State.reset.sp.val < 12 ∧ ({ State.reset with sp := 11 } : State).sp.val < 12 ∧
      ({ State.reset with sp := 12 } : State).sp.val = 12 ∧ State.reset.sp.val = 0 := by decide

/-- The four ways X and Y can name VF, the clauses of the statements about 8XY4 to 8XYE. -/
theorem witness_register_clauses :
    ((1 : Reg) ≠ VF ∧ (2 : Reg) ≠ VF) ∧ ((0xE : Reg) ≠ VF ∧ (0xF : Reg) = VF) ∧ ((0xF : Reg) = VF ∧ (0x0 : Reg) ≠ VF) := by
  decide

theorem witness_DecimalDigitsAreStored : (State.reset.setI 0xFFD).i.toNat + 2 < 0x1000 := by decide

/-- The last address in memory, for RegistersAreStored, RegistersAreLoaded and StoredBytesAreFetched. -/
theorem witness_register_transfers :
    (State.reset.setI 0xFF0).i.toNat + (0xF : Reg).toNat < 0x1000 ∧ (0xF : Reg).toNat = (0xE : Reg).toNat + 1 := by decide

/-- The first address past memory, for the fault clause of FX33, of FX55 and FX65, and of DXYN. -/
theorem witness_data_past_memory :
    0x1000 ≤ (State.reset.setI 0xFFE).i.toNat + 2 ∧
      0x1000 ≤ (State.reset.setI 0xFF1).i.toNat + (0xF : Reg).toNat ∧
      (2 < (3 : Nibble).toNat ∧ ((withV [(1, 29)]).getV 1).toNat % 32 + 2 < 32 ∧
        0x1000 ≤ (State.reset.setI 0xFFE).i.toNat + 2) := by decide

/-- No row drawn, and the last row at the last address: the two ways a DXYN completes. -/
theorem witness_draw_completes :
    (∀ r, r < (0 : Nibble).toNat → ((State.reset.setI 0xFFFF).getV 1).toNat % 32 + r < 32 → 0xFFFF + r < 0x1000) ∧
      (∀ r, r < (5 : Nibble).toNat → ((State.reset.setI 0xFFB).getV 1).toNat % 32 + r < 32 →
        (State.reset.setI 0xFFB).i.toNat + r < 0x1000) ∧
      (State.reset.setI 0xFFFF).drawnRows 1 0 = 0 := by decide

/-- A sprite bit over a cell that is on, and a blank display: the two clauses on VF. -/
theorem witness_draw_collision_clauses :
    let s := (State.reset.setI 0x000).setDisplay (Display.blank.setPixel 0 0 true)
    s.spriteBit 0 1 5 0 0 = true ∧ s.display.pixel 0 0 = true ∧ Display.blank.pixel 0 0 = false := by decide

/-- With X and Y other than VF the second draw has the origin of the first. -/
theorem witness_DrawTwiceRestoresTheDisplay :
    ∃ t, exec (.drw 0 1 5) State.reset = .next t ∧ t.originX 0 = State.reset.originX 0 ∧
      t.originY 1 = State.reset.originY 1 := ⟨_, rfl, by decide, by decide⟩

/-- Other contents above the sprite's row: the hypothesis of DrawReadsOnlyTheDrawnRows. -/
theorem witness_DrawReadsOnlyTheDrawnRows :
    (∀ r, r < State.reset.drawnRows 1 1 → Memory.read [(1, 0xFF)] (State.reset.i.toNat + r) = State.reset.readByte (State.reset.i.toNat + r)) ∧
      ∃ t, exec (.drw 0 1 1) State.reset = .next t := ⟨by decide, _, rfl⟩

/-- The highest key number that names a key, and the lowest that names none. -/
theorem witness_key_numbers :
    ((withV [(0, 0x0F)]).getV 0).toNat = (0xF : Reg).toNat ∧ 0x0F < ((withV [(0, 0x10)]).getV 0).toNat := by decide

/-- A lowest key pressed, and none pressed. -/
theorem witness_WaitForKeyTakesTheLowest :
    ((State.reset.setKey 15 true).keyDown 15 = true ∧
      ∀ j : Reg, j.toNat < (15 : Reg).toNat → (State.reset.setKey 15 true).keyDown j = false) ∧
      ∀ k : Reg, State.reset.keyDown k = false := by decide

theorem witness_PauseAndResume :
    State.reset.runState = .running ∧ State.reset.pause.runState = .paused ∧
      (State.reset.raise .stackOverflow 0).runState = .halted := by decide

/-- Corner cells of the display. -/
theorem witness_OutputsShowTheState : (63 < 64 ∧ 31 < 32) ∧ 31 * 64 + 63 = 2047 := by decide

/-- The longest image that fits and the shortest that does not. -/
theorem witness_construct_images :
    (List.replicate 3584 (0 : Byte)).length ≤ 3584 ∧ (List.replicate 3584 (0 : Byte)).length = 3584 ∧
      3584 < (List.replicate 3585 (0 : Byte)).length := by
  simp only [List.length_replicate]; decide

theorem witness_FrameRunsKeysThenStepsThenTick :
    ∀ k ∈ (⟨[(3, true), (15, false)], 2⟩ : HostFrame).keys, k.1 < 16 := by decide

end Sys2Proof.Tests
end

section
/-! PROOFS. What one instruction can do, said once (`exec_faults_or_completes`), and the settled statements: every
step keeps the invariant, which follows from that lemma, and FX1E adds to I. -/

namespace Sys2Proof

/-! ### A word that decodes to an instruction is that instruction's encoding -/

theorem encNNN_of_match {op : Word} {t : BitVec 4} (h : op &&& 0xF000 = encNNN t 0) :
    encNNN t (fieldNNN op) = op := by
  rw [← (and_F000_eq_iff op t).mp h, encNNN_fields]

theorem encXNN_of_match {op : Word} {t : BitVec 4} (h : op &&& 0xF000 = encNNN t 0) :
    encXNN t (fieldX op) (fieldNN op) = op := by
  rw [← (and_F000_eq_iff op t).mp h, encXNN_fields]

theorem encXYN_of_match {op : Word} {t : BitVec 4} (h : op &&& 0xF000 = encNNN t 0) :
    encXYN t (fieldX op) (fieldY op) (fieldN op) = op := by
  rw [← (and_F000_eq_iff op t).mp h, encXYN_fields]

theorem encXY_of_match {op : Word} {t : BitVec 4} {n : Nibble} (h : op &&& 0xF00F = encXYN t 0 0 n) :
    encXYN t (fieldX op) (fieldY op) n = op := by
  obtain ⟨ht, hn⟩ := (and_F00F_eq_iff op t n).mp h
  rw [← ht, ← hn, encXYN_fields]

theorem encX_of_match {op : Word} {t : BitVec 4} {nn : Byte} (h : op &&& 0xF0FF = encXNN t 0 nn) :
    encXNN t (fieldX op) nn = op := by
  obtain ⟨ht, hnn⟩ := (and_F0FF_eq_iff op t nn).mp h
  rw [← ht, ← hnn, encXNN_fields]

theorem eq_of_fullMatch {op p : Word} (h : op &&& 0xFFFF = p) : p = op :=
  h.symm.trans BitVec.and_allOnes

/-- The row's instruction, built from a word that matches the row, is encoded by that word. -/
def Row.RoundTrips (r : Row) : Prop := ∀ op, op &&& r.mask = r.pattern → encode (r.build op) = op

theorem roundTrips_of_mem_rowsControl : ∀ r ∈ rowsControl, r.RoundTrips := by
  simp only [rowsControl, List.forall_mem_cons]
  exact ⟨fun _ h => eq_of_fullMatch h, fun _ h => eq_of_fullMatch h, fun _ h => encNNN_of_match h,
    fun _ h => encNNN_of_match h, fun _ h => encXNN_of_match h, fun _ h => encXNN_of_match h,
    fun _ h => encXY_of_match h, fun _ h => encXNN_of_match h, fun _ h => encXNN_of_match h, List.forall_mem_nil _⟩

theorem roundTrips_of_mem_rowsAlu : ∀ r ∈ rowsAlu, r.RoundTrips := by
  simp only [rowsAlu, List.forall_mem_cons]
  refine ⟨?_, ?_, ?_, ?_, ?_, ?_, ?_, ?_, ?_, ?_, List.forall_mem_nil _⟩ <;> exact fun _ h => encXY_of_match h

theorem roundTrips_of_mem_rowsIndexDisplayKeys : ∀ r ∈ rowsIndexDisplayKeys, r.RoundTrips := by
  simp only [rowsIndexDisplayKeys, List.forall_mem_cons]
  exact ⟨fun _ h => encNNN_of_match h, fun _ h => encNNN_of_match h, fun _ h => encXNN_of_match h,
    fun _ h => encXYN_of_match h, fun _ h => encX_of_match h, fun _ h => encX_of_match h, List.forall_mem_nil _⟩

theorem roundTrips_of_mem_rowsMisc : ∀ r ∈ rowsMisc, r.RoundTrips := by
  simp only [rowsMisc, List.forall_mem_cons]
  refine ⟨?_, ?_, ?_, ?_, ?_, ?_, ?_, ?_, ?_, List.forall_mem_nil _⟩ <;> exact fun _ h => encX_of_match h

/-- No bit of a word that decodes to an instruction is dropped (R71, R75). -/
theorem encode_of_decode {op : Word} {i : Instr} (h : decode op = .instr i) : encode i = op := by
  obtain ⟨r, hr, hm, rfl⟩ := matches_of_decode op i h
  have hmatch : op &&& r.mask = r.pattern := by simpa [Row.matchesWord] using hm
  simp only [opcodeTable, List.mem_append] at hr
  obtain ((hr | hr) | hr) | hr := hr
  · exact roundTrips_of_mem_rowsControl r hr op hmatch
  · exact roundTrips_of_mem_rowsAlu r hr op hmatch
  · exact roundTrips_of_mem_rowsIndexDisplayKeys r hr op hmatch
  · exact roundTrips_of_mem_rowsMisc r hr op hmatch

end Sys2Proof

namespace Sys2Proof.Machine

open Sys2Proof

/-! ### Updates that leave memory, the stack, current_instruction and the run state alone -/

/-- Everything the invariant speaks of, but PC, is the same in two states. -/
structure SameControl (s t : State) : Prop where
  mem : t.mem = s.mem
  stack : t.stack = s.stack
  sp : t.sp = s.sp
  cur : t.cur = s.cur
  runState : t.runState = s.runState
  fault : t.fault = s.fault

theorem SameControl.trans {s t u : State} (h : SameControl s t) (k : SameControl t u) : SameControl s u :=
  ⟨k.mem.trans h.mem, k.stack.trans h.stack, k.sp.trans h.sp, k.cur.trans h.cur, k.runState.trans h.runState,
    k.fault.trans h.fault⟩

theorem SameControl.setV (s : State) (x : Reg) (b : Byte) : SameControl s (s.setV x b) :=
  ⟨rfl, rfl, rfl, rfl, rfl, rfl⟩

theorem SameControl.setPc (s : State) (w : Word) : SameControl s (s.setPc w) := ⟨rfl, rfl, rfl, rfl, rfl, rfl⟩

theorem SameControl.setI (s : State) (w : Word) : SameControl s (s.setI w) := ⟨rfl, rfl, rfl, rfl, rfl, rfl⟩

theorem SameControl.setDisplay (s : State) (d : Display) : SameControl s (s.setDisplay d) :=
  ⟨rfl, rfl, rfl, rfl, rfl, rfl⟩

theorem SameControl.setDelayTimer (s : State) (b : Byte) : SameControl s (s.setDelayTimer b) :=
  ⟨rfl, rfl, rfl, rfl, rfl, rfl⟩

theorem SameControl.setSoundTimer (s : State) (b : Byte) : SameControl s (s.setSoundTimer b) :=
  ⟨rfl, rfl, rfl, rfl, rfl, rfl⟩

theorem SameControl.drawRandom (s : State) : SameControl s s.drawRandom.2 := ⟨rfl, rfl, rfl, rfl, rfl, rfl⟩

theorem SameControl.skipIf (s : State) (c : Bool) : SameControl s (s.skipIf c) := by
  constructor <;> simp

theorem SameControl.flagOp (mode : AluAlias) (flag : Byte → Byte → Bool) (result : Byte → Byte → Byte) (x y : Reg)
    (s : State) : SameControl s (s.flagOp mode flag result x y) := by
  obtain ⟨b, hb⟩ := flagOp_eq mode flag result x y s
  rw [hb]
  exact (SameControl.setV ..).trans (SameControl.setV ..)

theorem SameControl.setRegsFrom (s : State) (k : Nat) (bs : List Byte) : SameControl s (s.setRegsFrom k bs) := by
  rw [setRegsFrom_eq]
  exact ⟨rfl, rfl, rfl, rfl, rfl, rfl⟩

@[simp] theorem flagOp_pc (mode : AluAlias) (flag : Byte → Byte → Bool) (result : Byte → Byte → Byte) (x y : Reg)
    (s : State) : (s.flagOp mode flag result x y).pc = s.pc := by
  cases mode <;> rfl

@[simp] theorem setRegsFrom_pc (s : State) (k : Nat) (bs : List Byte) : (s.setRegsFrom k bs).pc = s.pc := by
  rw [setRegsFrom_eq]

/-- A fetch that gives a word reads inside memory (R53). -/
theorem pc_lt_of_fetchWord {s : State} {op : Word} (h : s.fetchWord = some op) : s.pc.toNat + 1 < 0x1000 := by
  rw [← Nat.not_le, ← fetchWord_eq_none_iff, h]
  simp

/-! ### Conditions that exec and the spec's tables say in two ways -/

/-- PC after a skip from the staged state (R101): past the instruction, and past the next one when the condition holds. -/
theorem skipIf_stage_pc (s : State) (op : Word) (c : Bool) :
    ((s.stage op).skipIf c).pc = if c then s.pc + 4 else s.pc + 2 := by
  rw [skipIf_pc, stage_pc, BitVec.add_assoc]
  rfl

theorem keyOfByte_eq_none_iff (b : Byte) : keyOfByte b = none ↔ 0x0F < b.toNat := by
  simp [keyOfByte]

theorem toNat_of_keyOfByte {b : Byte} {k : BitVec 4} (h : keyOfByte b = some k) : k.toNat = b.toNat := by
  unfold keyOfByte at h
  split at h
  · cases h
    rw [BitVec.toNat_setWidth]
    omega
  · cases h

/-- The key that V[x] names, read from the keypad (R190, R191). -/
theorem keyOfReg_of_keyOfByte {s : State} {x : Reg} {k : BitVec 4} (h : keyOfByte (s.getV x) = some k) :
    s.keyOfReg x = s.keyDown k := by
  have hk := k.isLt
  simp [State.keyOfReg, State.keyDown, ← toNat_of_keyOfByte h, List.getD_eq_getElem?_getD, hk]

theorem mem_keyOrder (k : BitVec 4) : k ∈ keyOrder := by
  revert k
  decide

/-- FX0A finds no key exactly when no cell of the keypad is on (R193). -/
theorem lowestKeyDown_eq_none_iff (s : State) : s.lowestKeyDown = none ↔ s.keypad.toList.any id = false := by
  have hcells : s.keypad.toList.any id = false ↔ ∀ k : BitVec 4, s.keyDown k = false := by
    simp only [List.any_eq_false, id, Bool.not_eq_true]
    constructor
    · intro h k
      exact h _ (by simp [State.keyDown])
    · intro h b hb
      obtain ⟨n, hn, rfl⟩ := List.getElem_of_mem hb
      have hn : n < 16 := by simpa using hn
      have := h (BitVec.ofNat 4 n)
      simpa [State.keyDown, Nat.mod_eq_of_lt hn] using this
  rw [hcells, State.lowestKeyDown, List.find?_eq_none]
  exact ⟨fun h k => by simpa using h k (mem_keyOrder k), fun h k _ => by simp [h k]⟩

/-- The rows drawn lie in memory exactly when DXYN has no fault in the table R210. -/
theorem faultOf_drw (s : State) (x y : Reg) (n : Nibble) :
    faultOf (.drw x y n) s = if s.spriteInMemory y n then none else some .dataOutOfRange := by
  have h : s.spriteInMemory y n = true ↔ ¬(0 < s.drawnRows y n ∧ 0x1000 ≤ s.i.toNat + s.drawnRows y n - 1) := by
    simp only [State.spriteInMemory, Bool.or_eq_true, decide_eq_true_eq, inMemory_iff]
    omega
  show (if 0 < s.drawnRows y n ∧ 0x1000 ≤ s.i.toNat + s.drawnRows y n - 1 then _ else _) = _
  by_cases hs : s.spriteInMemory y n = true
  · rw [if_neg (h.mp hs), if_pos hs]
  · rw [if_pos (not_not.mp (mt h.mpr hs)), if_neg hs]

/-- No instruction has the fetch's own fault in the table R210. -/
theorem faultOf_ne_fetchOutOfRange (i : Instr) (s : State) : faultOf i s ≠ some .fetchOutOfRange := by
  cases i with
  | call | ret | drw | ldBVx | storeRegs | loadRegs | skp | sknp =>
    dsimp only [faultOf]
    split <;> simp
  | _ => simp [faultOf]

/-! ### What an instruction can do -/

/-- `t` is what instruction `i` leaves of `s` when it completes: PC by the table R95, current_instruction recorded (R92),
the run state and the record as before, memory changed by at most one run of bytes inside it, and on the stack only
entries that were there and the address after the instruction (R104). -/
structure Completes (i : Instr) (s t : State) : Prop where
  noFault : faultOf i s = none
  pc : t.pc = pcAfter i s
  cur : t.cur = fieldsOf (encode i)
  runState : t.runState = s.runState
  fault : t.fault = s.fault
  mem : ∃ a bs, a + bs.length ≤ 0x1000 ∧ t.mem = s.mem.writeBytes a bs
  stack : ∀ k, k < t.sp.val →
    k < s.sp.val ∧ t.stack.toList.getD k 0 = s.stack.toList.getD k 0 ∨ t.stack.toList.getD k 0 = s.pc + 2

/-- `i` takes `s` to `t`: either a fault of the table R210 is entered, or the instruction completes. -/
def FaultsOrCompletes (i : Instr) (s t : State) : Prop :=
  (∃ kind, faultOf i s = some kind ∧ t = s.raise kind (encode i)) ∨ Completes i s t

theorem Completes.of_sameControl {i : Instr} {s t : State} (hf : faultOf i s = none) (hpc : t.pc = pcAfter i s)
    (h : SameControl (s.stage (encode i)) t) : Completes i s t where
  noFault := hf
  pc := hpc
  cur := h.cur
  runState := h.runState
  fault := h.fault
  mem := ⟨0, [], by simp, h.mem⟩
  stack k hk := by
    rw [h.sp] at hk
    rw [h.stack]
    exact .inl ⟨hk, rfl⟩

theorem Completes.of_writeBytes {i : Instr} {s : State} {a : Nat} {bs : List Byte} (hf : faultOf i s = none)
    (hpc : pcAfter i s = s.pc + 2) (hbs : a + bs.length ≤ 0x1000) :
    Completes i s ((s.stage (encode i)).writeBytes a bs) where
  noFault := hf
  pc := hpc.symm
  cur := rfl
  runState := rfl
  fault := rfl
  mem := ⟨a, bs, hbs, rfl⟩
  stack _ hk := .inl ⟨hk, rfl⟩

theorem exec_ret (s : State) : ∃ t, exec .ret s = .next t ∧ FaultsOrCompletes .ret s t := by
  show ∃ t, execRet s = .next t ∧ _
  unfold execRet
  split
  · next w s1 hpop =>
    obtain ⟨hsp, hw, hsp1, hs1⟩ := pop_spec _ _ _ hpop
    rw [stage_sp] at hsp hsp1
    generalize s1.sp = p at hsp1 hs1
    subst hs1
    exact ⟨_, rfl, .inr
      { noFault := if_neg (Nat.ne_of_gt hsp)
        pc := hw
        cur := rfl
        runState := rfl
        fault := rfl
        mem := ⟨0, [], by simp, rfl⟩
        stack := fun k (hk : k < p.val) => .inl ⟨by omega, rfl⟩ }⟩
  · next hpop =>
    have hsp : s.sp.val = 0 := (pop_eq_none_iff (s.stage _)).mp hpop
    exact ⟨_, rfl, .inl ⟨_, if_pos hsp, rfl⟩⟩

theorem exec_call (nnn : Addr) (s : State) :
    ∃ t, exec (.call nnn) s = .next t ∧ FaultsOrCompletes (.call nnn) s t := by
  show ∃ t, execCall nnn s = .next t ∧ _
  dsimp only [execCall]
  split
  · next s1 hpush =>
    obtain ⟨hsp, hsp1, hslots, hs1⟩ := push_spec _ _ _ hpush
    rw [stage_sp] at hsp hsp1
    generalize s1.sp = p at hsp1 hs1
    generalize s1.stack = slots at hslots hs1
    subst hs1
    refine ⟨_, rfl, .inr
      { noFault := if_neg (Nat.ne_of_lt hsp)
        pc := rfl
        cur := rfl
        runState := rfl
        fault := rfl
        mem := ⟨0, [], by simp, rfl⟩
        stack := fun k (hk : k < p.val) => ?_ }⟩
    rw [setPc_stack, hslots k (by omega)]
    by_cases htop : k = s.sp.val
    · exact .inr (if_pos htop)
    · exact .inl ⟨by omega, if_neg htop⟩
  · next hpush =>
    have hsp : s.sp.val = 12 := (push_eq_none_iff (s.stage _) _).mp hpush
    exact ⟨_, rfl, .inl ⟨_, if_pos hsp, rfl⟩⟩

theorem exec_skp (x : Reg) (s : State) : ∃ t, exec (.skp x) s = .next t ∧ FaultsOrCompletes (.skp x) s t := by
  show ∃ t, execSkp x s = .next t ∧ _
  unfold execSkp
  split
  · next k hk =>
    have hf : faultOf (.skp x) s = none := if_neg (by rw [← keyOfByte_eq_none_iff, hk]; simp)
    refine ⟨_, rfl, .inr (.of_sameControl hf ?_ (.skipIf ..))⟩
    rw [skipIf_stage_pc, pcAfter, keyOfReg_of_keyOfByte hk]
  · next hk => exact ⟨_, rfl, .inl ⟨_, if_pos ((keyOfByte_eq_none_iff _).mp hk), rfl⟩⟩

theorem exec_sknp (x : Reg) (s : State) : ∃ t, exec (.sknp x) s = .next t ∧ FaultsOrCompletes (.sknp x) s t := by
  show ∃ t, execSknp x s = .next t ∧ _
  unfold execSknp
  split
  · next k hk =>
    have hf : faultOf (.sknp x) s = none := if_neg (by rw [← keyOfByte_eq_none_iff, hk]; simp)
    refine ⟨_, rfl, .inr (.of_sameControl hf ?_ (.skipIf ..))⟩
    rw [skipIf_stage_pc, pcAfter, keyOfReg_of_keyOfByte hk]
    simp
  · next hk => exact ⟨_, rfl, .inl ⟨_, if_pos ((keyOfByte_eq_none_iff _).mp hk), rfl⟩⟩

theorem exec_ldVxK (x : Reg) (s : State) : ∃ t, exec (.ldVxK x) s = .next t ∧ FaultsOrCompletes (.ldVxK x) s t := by
  show ∃ t, execLdVxK x s = .next t ∧ _
  dsimp only [execLdVxK]
  split
  · next k hk =>
    have hany : s.keypad.toList.any id = true := by
      rw [← Bool.not_eq_false, ← lowestKeyDown_eq_none_iff, hk]
      simp
    exact ⟨_, rfl, .inr (.of_sameControl rfl (if_pos hany).symm (.setV ..))⟩
  · next hk =>
    have hany := (lowestKeyDown_eq_none_iff s).mp hk
    refine ⟨_, rfl, .inr (.of_sameControl rfl ?_ (.setPc ..))⟩
    rw [setPc_pc, stage_pc, BitVec.add_sub_cancel, pcAfter, hany]
    rfl

theorem exec_drw (x y : Reg) (n : Nibble) (s : State) :
    ∃ t, exec (.drw x y n) s = .next t ∧ FaultsOrCompletes (.drw x y n) s t := by
  show ∃ t, execDrw x y n s = .next t ∧ _
  unfold execDrw
  split
  · next h =>
    have hf : faultOf (.drw x y n) s = none := by rw [faultOf_drw, if_pos h]
    exact ⟨_, rfl, .inr (.of_sameControl hf rfl ((SameControl.setDisplay ..).trans (.setV ..)))⟩
  · next h => exact ⟨_, rfl, .inl ⟨_, by rw [faultOf_drw, if_neg h], rfl⟩⟩

/-- An instruction that checks its highest address before it writes (R56) faults or completes by that check alone. -/
theorem faultsOrCompletes_ite_inMemory {i : Instr} {s t : State} {a : Nat}
    (hf : faultOf i s = if 0x1000 ≤ a then some .dataOutOfRange else none)
    (hc : a < 0x1000 → faultOf i s = none → Completes i s t) :
    ∃ u, (if inMemory a then .next t else .next (s.raise .dataOutOfRange (encode i)) : Result) = .next u ∧
      FaultsOrCompletes i s u := by
  by_cases ha : a < 0x1000
  · exact ⟨t, if_pos ((inMemory_iff a).mpr ha), .inr (hc ha (hf.trans (if_neg (Nat.not_le.mpr ha))))⟩
  · exact ⟨_, if_neg (mt (inMemory_iff a).mp ha), .inl ⟨_, hf.trans (if_pos (Nat.not_lt.mp ha)), rfl⟩⟩

theorem exec_ldBVx (x : Reg) (s : State) : ∃ t, exec (.ldBVx x) s = .next t ∧ FaultsOrCompletes (.ldBVx x) s t :=
  faultsOrCompletes_ite_inMemory rfl fun ha hf => .of_writeBytes hf rfl (Nat.succ_le_of_lt ha)

theorem exec_storeRegs (x : Reg) (s : State) :
    ∃ t, exec (.storeRegs x) s = .next t ∧ FaultsOrCompletes (.storeRegs x) s t := by
  refine faultsOrCompletes_ite_inMemory rfl fun ha hf => .of_writeBytes hf rfl ?_
  rw [length_firstRegs s _ x.isLt]
  exact Nat.succ_le_of_lt ha

theorem exec_loadRegs (x : Reg) (s : State) :
    ∃ t, exec (.loadRegs x) s = .next t ∧ FaultsOrCompletes (.loadRegs x) s t :=
  faultsOrCompletes_ite_inMemory rfl fun _ hf => .of_sameControl hf (setRegsFrom_pc ..) (.setRegsFrom ..)

/-- Every instruction answers a next state, and it is one of the two that the tables R95 and R210 allow. -/
theorem exec_faults_or_completes (i : Instr) (s : State) : ∃ t, exec i s = .next t ∧ FaultsOrCompletes i s t := by
  cases i with
  | cls => exact ⟨_, rfl, .inr (.of_sameControl rfl rfl (.setDisplay ..))⟩
  | ret => exact exec_ret s
  | jp nnn => exact ⟨_, rfl, .inr (.of_sameControl rfl rfl (.setPc ..))⟩
  | jpV0 nnn => exact ⟨_, rfl, .inr (.of_sameControl rfl rfl (.setPc ..))⟩
  | call nnn => exact exec_call nnn s
  | seByte | sneByte | seReg | sneReg =>
    refine ⟨_, rfl, .inr (.of_sameControl rfl ?_ (.skipIf ..))⟩
    rw [skipIf_stage_pc]
    simp [pcAfter]
  | ldByte | addByte | ldReg | orReg | andReg | xorReg | ldVxDT =>
    exact ⟨_, rfl, .inr (.of_sameControl rfl rfl (.setV ..))⟩
  | addReg | subReg | shrReg | subnReg | shlReg =>
    exact ⟨_, rfl, .inr (.of_sameControl rfl (flagOp_pc ..) (.flagOp ..))⟩
  | rnd x nn => exact ⟨_, rfl, .inr (.of_sameControl rfl rfl ((SameControl.drawRandom _).trans (.setV ..)))⟩
  | drw x y n => exact exec_drw x y n s
  | skp x => exact exec_skp x s
  | sknp x => exact exec_sknp x s
  | ldVxK x => exact exec_ldVxK x s
  | ldDTVx x => exact ⟨_, rfl, .inr (.of_sameControl rfl rfl (.setDelayTimer ..))⟩
  | ldSTVx x => exact ⟨_, rfl, .inr (.of_sameControl rfl rfl (.setSoundTimer ..))⟩
  | ldI | addIVx | ldFVx => exact ⟨_, rfl, .inr (.of_sameControl rfl rfl (.setI ..))⟩
  | ldBVx x => exact exec_ldBVx x s
  | storeRegs x => exact exec_storeRegs x s
  | loadRegs x => exact exec_loadRegs x s

theorem faultsOrCompletes_of_exec {i : Instr} {s t : State} (h : exec i s = .next t) : FaultsOrCompletes i s t := by
  obtain ⟨u, hu, hc⟩ := exec_faults_or_completes i s
  cases hu.symm.trans h
  exact hc

/-! ### The invariant -/

/-- PC after an instruction that was fetched inside memory and completes is at most 0x10FE, which BNNN reaches (R9). -/
theorem pcAfter_le {i : Instr} {s : State} (hs : s.Inv) (hpc : s.pc.toNat + 1 < 0x1000) (hf : faultOf i s = none) :
    (pcAfter i s).toNat ≤ 0x10FE := by
  have hnext : (s.pc + 2).toNat ≤ 0x10FE := by bv_omega
  have hskip : (s.pc + 4).toNat ≤ 0x10FE := by bv_omega
  have haddr (nnn : Addr) : (nnn.setWidth 16).toNat ≤ 0xFFF := by
    rw [BitVec.toNat_setWidth_of_le (by decide)]
    omega
  cases i with
  | jp nnn => exact Nat.le_trans (haddr nnn) (by decide)
  | call nnn => exact Nat.le_trans (haddr nnn) (by decide)
  | ret =>
    have hsp : s.sp.val ≠ 0 := by simpa [faultOf] using hf
    exact Nat.le_trans (hs.returns (s.sp.val - 1) (by omega)).2 (by decide)
  | jpV0 nnn =>
    have hv : ((s.getV 0).setWidth 16).toNat ≤ 0xFF := by
      rw [BitVec.toNat_setWidth_of_le (by decide)]
      omega
    have := haddr nnn
    simp only [pcAfter, BitVec.toNat_add]
    omega
  | seByte | sneByte | seReg | sneReg | skp | sknp =>
    dsimp only [pcAfter]
    split <;> assumption
  | ldVxK =>
    dsimp only [pcAfter]
    split
    · exact hnext
    · exact hs.pcBound
  | _ => exact hnext

/-- A Running machine that meets the invariant has recorded no fault. -/
theorem State.Inv.fault_eq_none {s : State} (hs : s.Inv) (hr : s.runState = .running) : s.fault = none := by
  have := hs.halted
  simpa [hr] using this

/-- In a Running machine without a fault record, the clauses on Halted and on the record hold of themselves. -/
theorem State.Inv.of_running {s : State} (hr : s.runState = .running) (hf : s.fault = none) (hm : s.mem.wf = true)
    (hc : s.cur = fieldsOf s.cur.opcode) (hpc : s.pc.toNat ≤ 0x10FE)
    (hret : ∀ k, k < s.sp.val → 0x2 ≤ (s.stack.toList.getD k 0).toNat ∧ (s.stack.toList.getD k 0).toNat ≤ 0x1000) :
    s.Inv where
  memory := hm
  current := hc
  halted := by simp [hr, hf]
  record f h := by simp [hf] at h
  pcBound := hpc
  returns := hret

/-- Entering a fault keeps the invariant, if the record names the word at PC and the kind says whether there is one. -/
theorem State.Inv.raise {s : State} (hs : s.Inv) {kind : FaultKind} {op : Word} (hop : op = s.fetchWord.getD 0)
    (hkind : kind = .fetchOutOfRange ↔ s.fetchWord = none) : (s.raise kind op).Inv where
  memory := hs.memory
  current := hs.current
  halted := by simp
  record f h := by
    cases h
    exact ⟨rfl, hop, hkind⟩
  pcBound := hs.pcBound
  returns := hs.returns

theorem State.Inv.stage {s : State} (hs : s.Inv) (hr : s.runState = .running) (hpc : s.pc.toNat + 1 < 0x1000)
    (op : Word) : (s.stage op).Inv :=
  .of_running hr (hs.fault_eq_none hr) hs.memory rfl (by rw [stage_pc]; bv_omega) hs.returns

theorem State.Inv.of_completes {i : Instr} {s t : State} (hs : s.Inv) (hr : s.runState = .running)
    (hpc : s.pc.toNat + 1 < 0x1000) (h : Completes i s t) : t.Inv := by
  obtain ⟨a, bs, hbs, hmem⟩ := h.mem
  refine .of_running (h.runState.trans hr) (h.fault.trans (hs.fault_eq_none hr)) ?_ ?_ ?_ fun k hk => ?_
  · rw [hmem]
    exact Memory.wf_writeBytes _ _ _ hs.memory hbs
  · rw [h.cur]
    rfl
  · rw [h.pc]
    exact pcAfter_le hs hpc h.noFault
  · obtain ⟨hks, heq⟩ | heq := h.stack k hk
    · rw [heq]
      exact hs.returns k hks
    · rw [heq]
      bv_omega

theorem State.Inv.exec {i : Instr} {op : Word} {s t : State} (hs : s.Inv) (hr : s.runState = .running)
    (hfetch : s.fetchWord = some op) (hd : decode op = .instr i) (h : exec i s = .next t) : t.Inv := by
  obtain ⟨kind, hkind, rfl⟩ | hc := faultsOrCompletes_of_exec h
  · have hne : kind ≠ .fetchOutOfRange := by
      rintro rfl
      exact faultOf_ne_fetchOutOfRange i s hkind
    exact hs.raise (by rw [hfetch]; exact encode_of_decode hd) (by simp [hne, hfetch])
  · exact hs.of_completes hr (pc_lt_of_fetchWord hfetch) hc

/-- Settles O16: by the four things a step can do, each of which keeps the invariant. -/
theorem stepKeepsInvariant : Obligations.StepKeepsInvariant := by
  intro s t hs h
  obtain ⟨-, rfl⟩ | ⟨-, hfetch, rfl⟩ | ⟨hr, op, i, hfetch, hd, hexec⟩ | ⟨hr, op, _, hfetch, -, rfl⟩ := step_cases s t h
  · exact hs
  · exact hs.raise (by rw [hfetch]; rfl) (by simp [hfetch])
  · exact hs.exec hr hfetch hd hexec
  · exact hs.stage hr (pc_lt_of_fetchWord hfetch) op

/-! ### FX1E -/

/-- Staging and a write of I leave every component but I (R38). -/
theorem keepsAllBut_setI_stage (s : State) (op v : Word) : KeepsAllBut [.index] s ((s.stage op).setI v) := by
  intro c hc
  cases c with
  | index => simp at hc
  | memory | registers => exact fun _ => rfl
  | stack | runState => exact ⟨rfl, rfl⟩
  | _ => rfl

/-- Settles O37: the sum of words is the sum of naturals modulo 65536, and only I is written beside the staging. -/
theorem indexAddWraps : Obligations.IndexAddWraps := by
  intro x s
  refine ⟨_, rfl, ?_, ⟨rfl, rfl⟩, keepsAllBut_setI_stage _ _ _⟩
  rw [setI_i, BitVec.toNat_add, zextByte, BitVec.toNat_setWidth_of_le (by decide)]

end Sys2Proof.Machine
end

section
/-! PROOFS. The frame of every instruction, said once: which components survive each update (`KeepsAllBut.setV` and its
like) and each instruction (`keepsAllBut_of_exec`, `getV_of_exec`). With them the statements of the state family: reset,
construct, the outputs, and CXNN. -/

namespace Sys2Proof.Machine

open Sys2Proof

/-! ### Frames of the updates (R38)

Each rule carries a frame from `s` to `u` past one more update of `u` that the frame allows. -/

section Frames

variable {l : List Component} {s t u : State}

theorem Component.Same.trans {c : Component} (h : c.Same s u) (k : c.Same u t) : c.Same s t := by
  cases c with
  | memory | registers => exact fun a => (k a).trans (h a)
  | stack | runState => exact ⟨k.1.trans h.1, k.2.trans h.2⟩
  | _ => exact Eq.trans k h

/-- A write of nothing but PC and current_instruction, which every step may write. -/
theorem KeepsAllBut.keep (h : KeepsAllBut l s u)
    (hk : ∀ c : Component, c.Same u t := by intro c; cases c <;> simp [Component.Same]) : KeepsAllBut l s t :=
  fun c hc => (h c hc).trans (hk c)

/-- A write of one component that the frame allows. -/
theorem KeepsAllBut.write {c₀ : Component} (h : KeepsAllBut l s u) (h₀ : c₀ ∈ l)
    (hk : ∀ c : Component, c ≠ c₀ → c.Same u t := by intro c hc; cases c <;> simp [Component.Same] at hc ⊢) :
    KeepsAllBut l s t :=
  fun c hc => (h c hc).trans (hk c (ne_of_mem_of_not_mem h₀ hc).symm)

theorem KeepsAllBut.refl (l : List Component) (s : State) : KeepsAllBut l s s := by
  intro c _
  cases c <;> simp [Component.Same]

theorem KeepsAllBut.stage (l : List Component) (s : State) (op : Word) : KeepsAllBut l s (s.stage op) :=
  (KeepsAllBut.refl l s).keep

theorem KeepsAllBut.setPc (h : KeepsAllBut l s u) (w : Word) : KeepsAllBut l s (u.setPc w) :=
  h.keep

theorem KeepsAllBut.skipIf (h : KeepsAllBut l s u) (b : Bool) : KeepsAllBut l s (u.skipIf b) :=
  h.keep

theorem KeepsAllBut.setV (h : KeepsAllBut l s u) (x : Reg) (b : Byte)
    (hl : .registers ∈ l := by simp [writableComponents]) : KeepsAllBut l s (u.setV x b) :=
  h.write hl

theorem KeepsAllBut.setI (h : KeepsAllBut l s u) (w : Word)
    (hl : .index ∈ l := by simp [writableComponents]) : KeepsAllBut l s (u.setI w) :=
  h.write hl

theorem KeepsAllBut.setDisplay (h : KeepsAllBut l s u) (d : Display)
    (hl : .display ∈ l := by simp [writableComponents]) : KeepsAllBut l s (u.setDisplay d) :=
  h.write hl

theorem KeepsAllBut.setDelayTimer (h : KeepsAllBut l s u) (b : Byte)
    (hl : .delayTimer ∈ l := by simp [writableComponents]) : KeepsAllBut l s (u.setDelayTimer b) :=
  h.write hl

theorem KeepsAllBut.setSoundTimer (h : KeepsAllBut l s u) (b : Byte)
    (hl : .soundTimer ∈ l := by simp [writableComponents]) : KeepsAllBut l s (u.setSoundTimer b) :=
  h.write hl

theorem KeepsAllBut.drawRandom (h : KeepsAllBut l s u)
    (hl : .random ∈ l := by simp [writableComponents]) : KeepsAllBut l s u.drawRandom.2 :=
  h.write hl

theorem KeepsAllBut.writeBytes (h : KeepsAllBut l s u) (a : Nat) (bs : List Byte)
    (hl : .memory ∈ l := by simp [writableComponents]) : KeepsAllBut l s (u.writeBytes a bs) :=
  h.write hl

theorem KeepsAllBut.raise (s : State) (kind : FaultKind) (op : Word)
    (hl : .runState ∈ l := by simp [writableComponents]) : KeepsAllBut l s (s.raise kind op) :=
  (KeepsAllBut.refl l s).write hl

/-- A push and a pop answer the state with other slots and another cursor. -/
theorem KeepsAllBut.setStack (h : KeepsAllBut l s u) (slots : Vector Word 12) (p : Fin 13)
    (hl : .stack ∈ l := by simp [writableComponents]) : KeepsAllBut l s { u with stack := slots, sp := p } :=
  h.write hl fun c hc => by cases c <;> simp [Component.Same, State.getV, State.readByte] at hc ⊢

theorem KeepsAllBut.push (h : KeepsAllBut l s u) {w : Word} (hp : u.push w = some t)
    (hl : .stack ∈ l := by simp [writableComponents]) : KeepsAllBut l s t := by
  obtain ⟨-, -, -, ht⟩ := push_spec _ _ _ hp
  rw [ht]
  exact h.setStack _ _ hl

theorem KeepsAllBut.pop (h : KeepsAllBut l s u) {w : Word} (hp : u.pop = some (w, t))
    (hl : .stack ∈ l := by simp [writableComponents]) : KeepsAllBut l s t := by
  obtain ⟨-, -, -, ht⟩ := pop_spec _ _ _ hp
  rw [ht]
  exact h.setStack _ _ hl

theorem KeepsAllBut.flagOp (h : KeepsAllBut l s u) (mode : AluAlias) (flag : Byte → Byte → Bool)
    (result : Byte → Byte → Byte) (x y : Reg) (hl : .registers ∈ l := by simp [writableComponents]) :
    KeepsAllBut l s (u.flagOp mode flag result x y) := by
  obtain ⟨b, hb⟩ := flagOp_eq mode flag result x y u
  rw [hb]
  exact (h.setV _ _ hl).setV _ _ hl

theorem KeepsAllBut.setRegsFrom (h : KeepsAllBut l s u) (k : Nat) (bs : List Byte)
    (hl : .registers ∈ l := by simp [writableComponents]) : KeepsAllBut l s (u.setRegsFrom k bs) := by
  induction bs generalizing u k with
  | nil => exact h
  | cons b bs ih => exact ih (h.setV _ _ hl) _

end Frames

/-- A flag-setting operation writes no register but V[x] and VF (R24). -/
theorem getV_flagOp_ne (mode : AluAlias) (flag : Byte → Byte → Bool) (result : Byte → Byte → Byte) {x r : Reg}
    (y : Reg) (s : State) (hx : r ≠ x) (hVF : r ≠ VF) : (s.flagOp mode flag result x y).getV r = s.getV r := by
  obtain ⟨b, hb⟩ := flagOp_eq mode flag result x y s
  rw [hb, getV_setV_ne _ _ _ _ hx, getV_setV_ne _ _ _ _ hVF]

/-! ### Frames of the instructions -/

/-- An instruction writes no component outside its row of R38. -/
theorem keepsAllBut_of_exec {i : Instr} {s t : State} (h : exec i s = .next t) :
    KeepsAllBut (writableComponents i) s t := by
  have start (op : Word) := KeepsAllBut.stage (writableComponents i) s op
  cases i with
  | jp | jpV0 => cases h; exact (start _).setPc _
  | seByte | sneByte | seReg | sneReg => cases h; exact (start _).skipIf _
  | ldByte | addByte | ldReg | orReg | andReg | xorReg | ldVxDT =>
    cases h
    exact (start _).setV _ _
  | addReg | subReg | shrReg | subnReg | shlReg =>
    cases h
    exact (start _).flagOp _ _ _ _ _
  | ldI | addIVx | ldFVx => cases h; exact (start _).setI _
  | cls => cases h; exact (start _).setDisplay _
  | ldDTVx => cases h; exact (start _).setDelayTimer _
  | ldSTVx => cases h; exact (start _).setSoundTimer _
  | rnd => cases h; exact (start _).drawRandom.setV _ _
  | ret =>
    simp only [exec, execRet] at h
    split at h <;> cases h
    · next hpop => exact ((start _).pop hpop).setPc _
    · exact .raise _ _ _
  | call =>
    simp only [exec, execCall] at h
    split at h <;> cases h
    · next hpush => exact ((start _).push hpush).setPc _
    · exact .raise _ _ _
  | skp | sknp =>
    simp only [exec, execSkp, execSknp] at h
    split at h <;> cases h
    · exact (start _).skipIf _
    · exact .raise _ _ _
  | ldVxK =>
    simp only [exec, execLdVxK] at h
    split at h <;> cases h
    · exact (start _).setV _ _
    · exact (start _).setPc _
  | drw =>
    simp only [exec, execDrw] at h
    split at h <;> cases h
    · exact ((start _).setDisplay _).setV _ _
    · exact .raise _ _ _
  | ldBVx | storeRegs =>
    simp only [exec, execLdBVx, execStoreRegs] at h
    split at h <;> cases h
    · exact (start _).writeBytes _ _
    · exact .raise _ _ _
  | loadRegs =>
    simp only [exec, execLoadRegs] at h
    split at h <;> cases h
    · exact (start _).setRegsFrom _ _
    · exact .raise _ _ _

/-- An instruction writes no general register but its destination and, where R24 lists it, VF. -/
theorem getV_of_exec {i : Instr} {s t : State} {r : Reg} (h : exec i s = .next t) (hr : mayWriteReg i r = false) :
    t.getV r = s.getV r := by
  cases i with
  | ldByte | addByte | ldReg | orReg | andReg | xorReg | ldVxDT | rnd =>
    cases h
    exact getV_setV_ne _ _ _ _ (by simpa [mayWriteReg] using hr)
  | addReg | subReg | shrReg | subnReg | shlReg =>
    cases h
    obtain ⟨hx, hVF⟩ : r ≠ _ ∧ r ≠ VF := by simpa [mayWriteReg] using hr
    exact getV_flagOp_ne _ _ _ _ _ hx hVF
  | drw =>
    simp only [exec, execDrw] at h
    split at h <;> cases h
    · exact getV_setV_ne _ _ _ _ (by simpa [mayWriteReg] using hr)
    · rfl
  | ldVxK =>
    simp only [exec, execLdVxK] at h
    split at h <;> cases h
    · exact getV_setV_ne _ _ _ _ (by simpa [mayWriteReg] using hr)
    · rfl
  | loadRegs x =>
    have hx : x.toNat < r.toNat := by simpa [mayWriteReg] using hr
    simp only [exec, execLoadRegs] at h
    split at h <;> cases h
    · have hlen := Memory.length_readBytes s.mem s.i.toNat (x.toNat + 1)
      rw [getV_setRegsFrom _ _ _ (by omega), if_neg (by omega)]
      rfl
    · rfl
  | _ => exact keepsAllBut_of_exec h .registers (by simp [writableComponents]) r

/-- Settles O19: the components by the frame of each update an instruction makes, the registers by its writes. -/
theorem everyInstructionKeepsItsFrame : Obligations.EveryInstructionKeepsItsFrame :=
  fun _ _ _ h => ⟨keepsAllBut_of_exec h, fun _ hr => getV_of_exec h hr⟩

/-- Settles O35: the draw masked by NN is written to V[X]; what stays is the frame of CXNN. -/
theorem randomByteIsMasked : Obligations.RandomByteIsMasked := by
  intro x nn s
  have hexec : exec (.rnd x nn) s = .next _ := rfl
  refine ⟨_, hexec, getV_setV_self _ _ _, rfl, fun r hr => ?_, ⟨rfl, rfl⟩, keepsAllBut_of_exec hexec⟩
  exact getV_of_exec hexec (by simpa [mayWriteReg] using hr)

/-! ### Reset and construct -/

/-- Settles O17: reset is a Running state with nothing in memory, on the stack or in the fault record. -/
theorem resetMeetsInvariant : Obligations.ResetMeetsInvariant :=
  .of_running rfl rfl Memory.wf_nil (by decide) (by decide) fun k hk => absurd hk (Nat.not_lt_zero k)

theorem getV_reset : ∀ r, State.reset.getV r = 0 := by decide

theorem stack_reset : ∀ k, k < 12 → State.reset.stack.toList.getD k 0 = 0 := by decide

theorem keyDown_reset : ∀ k, State.reset.keyDown k = false := by decide

theorem construct_of_length_le {image : List Byte} (h : image.length ≤ 3584) :
    construct image = .next (State.reset.writeBytes 0x200 image) :=
  if_pos (decide_eq_true h)

/-- The font ends below 0x050 (R30). -/
theorem resetByte_of_font_le {a : Nat} (h : 0x50 ≤ a) : Memory.resetByte a = 0 :=
  List.getD_eq_default font 0 h

/-- A byte after construct: inside the image the image's, elsewhere what reset leaves (R250). -/
theorem readByte_image (image : List Byte) (a : Nat) :
    (State.reset.writeBytes 0x200 image).readByte a =
      if 0x200 ≤ a ∧ a < 0x200 + image.length then image.getD (a - 0x200) 0 else Memory.resetByte a :=
  Memory.read_writeBytes [] 0x200 image a

theorem readByte_image_inside {image : List Byte} {k : Nat} (h : k < image.length) :
    (State.reset.writeBytes 0x200 image).readByte (0x200 + k) = image.getD k 0 := by
  rw [readByte_image, if_pos (by omega), Nat.add_sub_cancel_left]

theorem readByte_image_outside {image : List Byte} {a : Nat} (h : a < 0x200 ∨ 0x200 + image.length ≤ a) :
    (State.reset.writeBytes 0x200 image).readByte a = Memory.resetByte a := by
  rw [readByte_image, if_neg (by omega)]

/-- Settles O54: memory by a read after the image is stored, the other components by the values of reset. -/
theorem constructLoadsTheImage : Obligations.ConstructLoadsTheImage := by
  intro image hlen
  refine ⟨_, construct_of_length_le hlen, fun a ha => ?font, fun a hfont ha => ?low, fun k hk => ?image,
    fun a ha _ => ?high, fun px py _ _ => pixel_blank px py, getV_reset, rfl, rfl, stack_reset, rfl, rfl, rfl,
    keyDown_reset, rfl, rfl, rfl⟩
  case font =>
    rw [readByte_image_outside (by omega)]
    rfl
  case low => rw [readByte_image_outside (by omega), resetByte_of_font_le hfont]
  case image => exact readByte_image_inside hk
  case high => rw [readByte_image_outside (by omega), resetByte_of_font_le (by omega)]

/-! ### Outputs -/

/-- Settles O53: a cell number splits into its row and column, and only 0 is not above 0. -/
theorem outputsShowTheState : Obligations.OutputsShowTheState := by
  intro s
  constructor
  · intro px py hpx _
    have hcol : (py * 64 + px) % 64 = px := by omega
    have hrow : (py * 64 + px) / 64 = py := by omega
    rw [State.displayCell, hcol, hrow]
  · rw [State.tone, decide_eq_true_eq, BitVec.toNat_ne, Nat.pos_iff_ne_zero]
    rfl

end Sys2Proof.Machine
end

section
/-! PROOFS. Memory as the step sees it: which bytes an instruction can store to (`readByte_of_exec`), that a fetch
reads what FX55 stored, that DXYN reads only the rows it draws, and that a fetch past memory faults. -/

namespace Sys2Proof.Machine

open Sys2Proof

/-! ### The fetch past memory (R53, R213) -/

theorem step_of_fetchWord_eq_none {s : State} (hr : s.runState = .running) (hf : s.fetchWord = none) :
    step s = .next (s.raise .fetchOutOfRange 0x0000) := by
  rw [step_of_running s hr, stepRunning, hf]

/-- Settles O9: PC + 1 at or past 0x1000 is exactly where the fetch gives no word. -/
theorem fetchPastMemoryFaults : Obligations.FetchPastMemoryFaults :=
  fun s hr hpc => ⟨_, step_of_fetchWord_eq_none hr ((fetchWord_eq_none_iff s).mpr hpc), rfl⟩

/-! ### Bytes stored by FX33 and FX55 -/

theorem readByte_writeBytes (s : State) (a : Nat) (bs : List Byte) (b : Nat) :
    (s.writeBytes a bs).readByte b = if a ≤ b ∧ b < a + bs.length then bs.getD (b - a) 0 else s.readByte b :=
  Memory.read_writeBytes s.mem a bs b

theorem readByte_writeBytes_of_lt (s : State) {a b : Nat} (bs : List Byte) (h : b < a) :
    (s.writeBytes a bs).readByte b = s.readByte b := by
  rw [readByte_writeBytes, if_neg (by omega)]

theorem writesMemory_cases {i : Instr} (h : .memory ∈ writableComponents i) :
    ∃ x, i = .ldBVx x ∨ i = .storeRegs x := by
  cases i with
  | ldBVx x => exact ⟨x, .inl rfl⟩
  | storeRegs x => exact ⟨x, .inr rfl⟩
  | _ => simp [writableComponents] at h

/-- An instruction changes a byte only if it is FX33 or FX55, and then only at I or above (R38, R154, R155). -/
theorem readByte_of_exec {i : Instr} {s t : State} {a : Nat} (h : exec i s = .next t)
    (ha : .memory ∈ writableComponents i → a < s.i.toNat) : t.readByte a = s.readByte a := by
  by_cases hm : .memory ∈ writableComponents i
  · obtain ⟨x, rfl | rfl⟩ := writesMemory_cases hm <;>
    · simp only [exec, execLdBVx, execStoreRegs] at h
      split at h <;> cases h
      · exact readByte_writeBytes_of_lt (s.stage _) _ (ha hm)
      · rfl
  · exact keepsAllBut_of_exec h .memory hm a

theorem nextInstr_of_decode {s : State} {op : Word} {i : Instr} (hr : s.runState = .running)
    (hf : s.fetchWord = some op) (hd : decode op = .instr i) : s.nextInstr = some i := by
  simp only [State.nextInstr, hr, hf, hd]

/-- Settles O20: an instruction that can store at all stores from I up, and the premise puts I at or above 0x200; the
other three things a step can do leave memory alone. -/
theorem reservedBytesKeptUnderThePremise : Obligations.ReservedBytesKeptUnderThePremise := by
  intro s t hpremise hstep a ha
  obtain ⟨-, rfl⟩ | ⟨-, -, rfl⟩ | ⟨hr, op, i, hf, hd, hexec⟩ | ⟨-, op, _, -, -, rfl⟩ := step_cases s t hstep
  · rfl
  · rfl
  · refine readByte_of_exec hexec fun hm => ?_
    obtain ⟨x, hi⟩ := writesMemory_cases hm
    have hI : 0x200 ≤ s.i.toNat := hpremise x (by simpa [nextInstr_of_decode hr hf hd] using hi)
    exact Nat.lt_of_lt_of_le ha hI
  · rfl

/-! ### A fetch of stored bytes (R62, R258) -/

theorem exec_storeRegs_of_lt {x : Reg} {s : State} (h : s.i.toNat + x.toNat < 0x1000) :
    exec (.storeRegs x) s =
      .next ((s.stage (encode (.storeRegs x))).writeBytes s.i.toNat (s.firstRegs (x.toNat + 1))) :=
  if_pos ((inMemory_iff _).mpr h)

/-- The byte at I + k after the first registers are stored from I up is V[k]. -/
theorem readByte_writeBytes_firstRegs (s u : State) (a : Nat) {x k : Reg} (hk : k.toNat ≤ x.toNat) :
    (u.writeBytes a (s.firstRegs (x.toNat + 1))).readByte (a + k.toNat) = s.getV k := by
  have hlen : (s.firstRegs (x.toNat + 1)).length = x.toNat + 1 := length_firstRegs s _ x.isLt
  rw [readByte_writeBytes, if_pos (by omega), Nat.add_sub_cancel_left, getD_firstRegs s _ k (by omega)]

/-- Settles O41: the fetch at I + k reads the bytes at I + k and I + k + 1, where FX55 stored V[k] and V[k + 1]. -/
theorem storedBytesAreFetched : Obligations.StoredBytesAreFetched := by
  intro x k j s hx hj hjx
  refine ⟨_, exec_storeRegs_of_lt hx, ?_⟩
  have hpc : (s.i + k.setWidth 16).toNat = s.i.toNat + k.toNat := by bv_omega
  have hnext : s.i.toNat + k.toNat + 1 = s.i.toNat + j.toNat := by omega
  rw [fetchWord_of_lt _ (by rw [setPc_pc]; omega), setPc_pc, hpc, hnext, setPc_readByte, setPc_readByte,
    readByte_writeBytes_firstRegs s _ _ (by omega), readByte_writeBytes_firstRegs s _ _ hjx, wordOfBytes]

/-! ### The rows that DXYN reads (R56, R173) -/

/-- The loop over rows reads one byte for each row above the bottom edge, and no other. -/
theorem drawRows_congr {m m' : Memory} (x0 : Nat) {n y a : Nat} (acc : Display × Bool)
    (h : ∀ r, r < min n (32 - y) → m'.read (a + r) = m.read (a + r)) :
    drawRows m' x0 n y a acc = drawRows m x0 n y a acc := by
  induction n generalizing y a acc with
  | zero => rfl
  | succ n ih =>
    unfold drawRows
    split
    · rfl
    · next hy =>
      have hfirst : m'.read a = m.read a := h 0 (by omega)
      rw [hfirst]
      refine ih _ fun r hr => ?_
      rw [Nat.add_right_comm]
      exact h (r + 1) (by omega)

theorem drawSprite_congr {x y : Reg} {n : Nibble} {s : State} {m : Memory}
    (h : ∀ r, r < s.drawnRows y n → m.read (s.i.toNat + r) = s.readByte (s.i.toNat + r)) :
    State.drawSprite { s with mem := m } x y n = s.drawSprite x y n :=
  drawRows_congr _ _ h

/-- Settles O45: the address check reads no memory, and the loop over rows reads only the rows drawn. -/
theorem drawReadsOnlyTheDrawnRows : Obligations.DrawReadsOnlyTheDrawnRows := by
  intro x y n s t m hrows h
  have hcheck : State.spriteInMemory { s with mem := m } y n = s.spriteInMemory y n := rfl
  simp only [exec, execDrw, hcheck, drawSprite_congr hrows] at h ⊢
  split at h <;> cases h
  · next hs => exact if_pos hs
  · next hs => exact if_neg hs

end Sys2Proof.Machine
end

section
/-! PROOFS. Encoding and decoding: the words of the encoder, the words that decode to an instruction, the row of the
opcode map that each of them matches, and the no-op space, read off the digits that the rows fix. -/

namespace Sys2Proof

/-! ### The round trips (R71, R73, R75) -/

open Laws in
/-- Every instruction's word is one of its own row, which builds the instruction back (R75). -/
theorem encodedByOwnRow : ∀ i : Instr, EncodedByOwnRow.Statement i
  | .cls => EncodedByOwnRow.cls
  | .ret => EncodedByOwnRow.ret
  | .jp nnn => EncodedByOwnRow.jp nnn
  | .call nnn => EncodedByOwnRow.call nnn
  | .seByte x nn => EncodedByOwnRow.seByte x nn
  | .sneByte x nn => EncodedByOwnRow.sneByte x nn
  | .seReg x y => EncodedByOwnRow.seReg x y
  | .ldByte x nn => EncodedByOwnRow.ldByte x nn
  | .addByte x nn => EncodedByOwnRow.addByte x nn
  | .ldReg x y => EncodedByOwnRow.ldReg x y
  | .orReg x y => EncodedByOwnRow.orReg x y
  | .andReg x y => EncodedByOwnRow.andReg x y
  | .xorReg x y => EncodedByOwnRow.xorReg x y
  | .addReg x y => EncodedByOwnRow.addReg x y
  | .subReg x y => EncodedByOwnRow.subReg x y
  | .shrReg x y => EncodedByOwnRow.shrReg x y
  | .subnReg x y => EncodedByOwnRow.subnReg x y
  | .shlReg x y => EncodedByOwnRow.shlReg x y
  | .sneReg x y => EncodedByOwnRow.sneReg x y
  | .ldI nnn => EncodedByOwnRow.ldI nnn
  | .jpV0 nnn => EncodedByOwnRow.jpV0 nnn
  | .rnd x nn => EncodedByOwnRow.rnd x nn
  | .drw x y n => EncodedByOwnRow.drw x y n
  | .skp x => EncodedByOwnRow.skp x
  | .sknp x => EncodedByOwnRow.sknp x
  | .ldVxDT x => EncodedByOwnRow.ldVxDT x
  | .ldVxK x => EncodedByOwnRow.ldVxK x
  | .ldDTVx x => EncodedByOwnRow.ldDTVx x
  | .ldSTVx x => EncodedByOwnRow.ldSTVx x
  | .addIVx x => EncodedByOwnRow.addIVx x
  | .ldFVx x => EncodedByOwnRow.ldFVx x
  | .ldBVx x => EncodedByOwnRow.ldBVx x
  | .storeRegs x => EncodedByOwnRow.storeRegs x
  | .loadRegs x => EncodedByOwnRow.loadRegs x

/-- Settles O1: the word of an instruction matches the instruction's own row, and a word decodes by any row it
matches. -/
theorem decodeGivesBackTheEncoded : Obligations.DecodeGivesBackTheEncoded := by
  intro i
  obtain ⟨r, hr, hm, hb⟩ := encodedByOwnRow i
  rw [decode_of_matches r _ hr hm, hb]

/-- Settles O2: every row of the map is the layout of its instruction, so a word that matches it is that encoding. -/
theorem encodeGivesBackTheDecoded : Obligations.EncodeGivesBackTheDecoded :=
  fun _ _ => encode_of_decode

/-! ### The row that a word matches (R74) -/

theorem Row.matchesWord_iff (r : Row) (op : Word) : r.matchesWord op = true ↔ op &&& r.mask = r.pattern :=
  beq_iff_eq

theorem Row.matchesWord_eq_false_iff (r : Row) (op : Word) : r.matchesWord op = false ↔ op &&& r.mask ≠ r.pattern :=
  beq_eq_false_iff_ne

theorem decode_eq_instr_iff (op : Word) (i : Instr) :
    decode op = .instr i ↔ ∃ r ∈ opcodeTable, op &&& r.mask = r.pattern ∧ i = r.build op := by
  constructor
  · intro h
    obtain ⟨r, hr, hm, hb⟩ := matches_of_decode op i h
    exact ⟨r, hr, (r.matchesWord_iff op).mp hm, hb.symm⟩
  · rintro ⟨r, hr, hm, rfl⟩
    exact decode_of_matches r op hr ((r.matchesWord_iff op).mpr hm)

/-- A later row of the map is not matched by a word that matches an earlier one. -/
theorem not_matches_later_row {op : Word} {j k : Nat} (hjk : j < k) (hk : k < opcodeTable.length)
    (hj : op &&& opcodeTable[j].mask = opcodeTable[j].pattern) :
    op &&& opcodeTable[k].mask ≠ opcodeTable[k].pattern := by
  have hdiffers := List.pairwise_iff_getElem.mp opcodeTable_differs j k (hjk.trans hk) hk hjk
  exact (Row.matchesWord_eq_false_iff _ op).mp
    (not_matches_of_differs _ _ op hdiffers ((Row.matchesWord_iff _ op).mpr hj))

/-- Settles O3: the decoder answers by a row the word matches, and any two rows fix some bit differently. -/
theorem opcodeMapSelectsOneRow : Obligations.OpcodeMapSelectsOneRow := by
  refine ⟨decode_eq_instr_iff, fun op j k hj hk hmj hmk => ?_⟩
  obtain hlt | heq | hgt := Nat.lt_trichotomy j k
  · exact absurd hmk (not_matches_later_row hlt hk hmj)
  · exact heq
  · exact absurd hmj (not_matches_later_row hgt hj hmk)

/-! ### The no-op space (R76) -/

/-- The mask and the match of a row that fixes the whole word. -/
def codeWord (p : Word) : Word × Word := (0xFFFF, p)

/-- The mask and the match of a row that fixes the top nibble. -/
def codeT (t : BitVec 4) : Word × Word := (0xF000, encNNN t 0)

/-- The mask and the match of a row that fixes the top and the low nibble. -/
def codeTN (t : BitVec 4) (n : Nibble) : Word × Word := (0xF00F, encXYN t 0 0 n)

/-- The mask and the match of a row that fixes the top nibble and the low byte. -/
def codeTNN (t : BitVec 4) (nn : Byte) : Word × Word := (0xF0FF, encXNN t 0 nn)

/-- The masks and the matches of the opcode map, grouped as the no-op space is: 00E0 and 00EE, the families of one row
each, then 5XY0, 8XYn, 9XY0, EXnn and FXnn. -/
def opcodeCodes : List (Word × Word) :=
  [0x00E0, 0x00EE].map codeWord ++ [0x1, 0x2, 0x3, 0x4, 0x6, 0x7, 0xA, 0xB, 0xC, 0xD].map codeT ++
    [0x0].map (codeTN 0x5) ++ [0x0, 0x1, 0x2, 0x3, 0x4, 0x5, 0x6, 0x7, 0xE].map (codeTN 0x8) ++
    [0x0].map (codeTN 0x9) ++ [0x9E, 0xA1].map (codeTNN 0xE) ++
    [0x07, 0x0A, 0x15, 0x18, 0x1E, 0x29, 0x33, 0x55, 0x65].map (codeTNN 0xF)

theorem opcodeTable_perm_codes : (opcodeTable.map fun r => (r.mask, r.pattern)).Perm opcodeCodes := by decide

/-- Whether a word matches some row depends on the masks and the matches alone, in any order. -/
theorem noMatch_iff_codes (op : Word) :
    (∀ r ∈ opcodeTable, r.matchesWord op = false) ↔ ∀ c ∈ opcodeCodes, op &&& c.1 ≠ c.2 := by
  simp only [← opcodeTable_perm_codes.mem_iff, List.forall_mem_map, Row.matchesWord_eq_false_iff]

theorem noMatch_codeWord_iff (op : Word) (ps : List Word) :
    (∀ p ∈ ps, op &&& (codeWord p).1 ≠ (codeWord p).2) ↔ op ∉ ps := by
  have hmask : op &&& 0xFFFF = op := BitVec.and_allOnes
  simp only [codeWord, hmask]
  exact ⟨fun h hop => h op hop rfl, fun h p hp heq => h (heq ▸ hp)⟩

theorem noMatch_codeT_iff (op : Word) (ts : List (BitVec 4)) :
    (∀ t ∈ ts, op &&& (codeT t).1 ≠ (codeT t).2) ↔ fieldT op ∉ ts := by
  simp only [codeT, Ne, and_F000_eq_iff]
  exact ⟨fun h ht => h _ ht rfl, fun h t ht heq => h (heq ▸ ht)⟩

theorem noMatch_codeTN_iff (op : Word) (t : BitVec 4) (ns : List Nibble) :
    (∀ n ∈ ns, op &&& (codeTN t n).1 ≠ (codeTN t n).2) ↔ (fieldT op = t → fieldN op ∉ ns) := by
  simp only [codeTN, Ne, and_F00F_eq_iff]
  exact ⟨fun h ht hn => h _ hn ⟨ht, rfl⟩, fun h n hn ⟨ht, heq⟩ => h ht (heq ▸ hn)⟩

theorem noMatch_codeTNN_iff (op : Word) (t : BitVec 4) (nns : List Byte) :
    (∀ nn ∈ nns, op &&& (codeTNN t nn).1 ≠ (codeTNN t nn).2) ↔ (fieldT op = t → fieldNN op ∉ nns) := by
  simp only [codeTNN, Ne, and_F0FF_eq_iff]
  exact ⟨fun h ht hn => h _ hn ⟨ht, rfl⟩, fun h nn hn ⟨ht, heq⟩ => h ht (heq ▸ hn)⟩

/-- A word outside the map, by its fields. -/
theorem noMatch_iff_fields (op : Word) :
    (∀ r ∈ opcodeTable, r.matchesWord op = false) ↔
      op ∉ [0x00E0#16, 0x00EE#16] ∧
      fieldT op ∉ [0x1#4, 0x2#4, 0x3#4, 0x4#4, 0x6#4, 0x7#4, 0xA#4, 0xB#4, 0xC#4, 0xD#4] ∧
      (fieldT op = 0x5 → fieldN op ∉ [0x0#4]) ∧
      (fieldT op = 0x8 → fieldN op ∉ [0x0#4, 0x1#4, 0x2#4, 0x3#4, 0x4#4, 0x5#4, 0x6#4, 0x7#4, 0xE#4]) ∧
      (fieldT op = 0x9 → fieldN op ∉ [0x0#4]) ∧
      (fieldT op = 0xE → fieldNN op ∉ [0x9E#8, 0xA1#8]) ∧
      (fieldT op = 0xF →
        fieldNN op ∉ [0x07#8, 0x0A#8, 0x15#8, 0x18#8, 0x1E#8, 0x29#8, 0x33#8, 0x55#8, 0x65#8]) := by
  simp only [noMatch_iff_codes, opcodeCodes, List.forall_mem_append, List.forall_mem_map, noMatch_codeWord_iff,
    noMatch_codeT_iff, noMatch_codeTN_iff, noMatch_codeTNN_iff, and_assoc]
  rfl

/-- The top nibbles with no-op words are the six of R76's list. -/
theorem topNibble_noOp_iff : ∀ t : BitVec 4,
    t ∉ [0x1#4, 0x2#4, 0x3#4, 0x4#4, 0x6#4, 0x7#4, 0xA#4, 0xB#4, 0xC#4, 0xD#4] ↔
      t ∈ [0x0#4, 0x5#4, 0x8#4, 0x9#4, 0xE#4, 0xF#4] := by
  decide

/-- The low nibbles of family 8 with no-op words are those of R76's list. -/
theorem lowNibble_family8_iff : ∀ n : Nibble,
    n ∉ [0x0#4, 0x1#4, 0x2#4, 0x3#4, 0x4#4, 0x5#4, 0x6#4, 0x7#4, 0xE#4] ↔
      n ∈ [0x8#4, 0x9#4, 0xA#4, 0xB#4, 0xC#4, 0xD#4, 0xF#4] := by
  decide

/-- 00E0 and 00EE lie in family 0. -/
theorem fieldT_of_cls_or_ret : ∀ op ∈ [0x00E0#16, 0x00EE#16], fieldT op = 0x0 :=
  List.forall_mem_cons.mpr ⟨rfl, List.forall_mem_singleton.mpr rfl⟩

/-- Settles O4: a word outside the map is outside the rows of its own family, and the families of R76 are the six that
their rows do not fill. -/
theorem noOpSpaceIsTheListOfSix : Obligations.NoOpSpaceIsTheListOfSix := by
  intro op
  rw [decode_eq_noOp_iff, noMatch_iff_fields, topNibble_noOp_iff, lowNibble_family8_iff]
  have hnot0 (h : fieldT op ≠ 0x0) : op ∉ [0x00E0#16, 0x00EE#16] := fun hop => h (fieldT_of_cls_or_ret op hop)
  by_cases ht : fieldT op ∈ [0x0#4, 0x5#4, 0x8#4, 0x9#4, 0xE#4, 0xF#4]
  · simp only [List.mem_cons, List.not_mem_nil, or_false] at ht
    obtain ht | ht | ht | ht | ht | ht := ht <;> simp [ht, hnot0]
  · simp only [List.mem_cons, List.not_mem_nil, or_false, not_or] at ht
    simp [ht]

/-! ### Words written out bit by bit (R73, R75) -/

/-- Settles O5: thirteen runs of the decoder on fixed words. -/
theorem writtenOutWordsDecode : Obligations.WrittenOutWordsDecode := by
  unfold Obligations.WrittenOutWordsDecode
  decide

end Sys2Proof
end

section
/-! PROOFS. The instruction cycle: a step by the word fetched (`step_of_decode_instr`, `step_of_decode_noOp`), where it
leaves PC, that it always answers a next state, and what it records in current_instruction. -/

namespace Sys2Proof.Machine

open Sys2Proof

/-! ### A step by the word fetched (R91, R93, R94) -/

theorem step_of_decode_instr {s : State} {op : Word} {i : Instr} (hr : s.runState = .running)
    (hf : s.fetchWord = some op) (hd : decode op = .instr i) : step s = exec i s := by
  simp only [step_of_running s hr, stepRunning, hf, hd]

theorem step_of_decode_noOp {s : State} {op : Word} {space : NoOpSpace} (hr : s.runState = .running)
    (hf : s.fetchWord = some op) (hd : decode op = .noOp space) : step s = .next (s.stage op) := by
  simp only [step_of_running s hr, stepRunning, hf, hd]

/-! ### PC after a step, and that there is one (R95, R96) -/

/-- PC after an instruction that faults or completes (R95). -/
theorem FaultsOrCompletes.pc_eq {i : Instr} {s t : State} (h : FaultsOrCompletes i s t) :
    t.pc = if (faultOf i s).isSome then s.pc else pcAfter i s := by
  obtain ⟨kind, hkind, rfl⟩ | hc := h
  · simp [hkind]
  · simp [hc.noFault, hc.pc]

/-- Settles O13: the four clauses are the four things a step can do, and an instruction faults or completes. -/
theorem programCounterAfterStep : Obligations.ProgramCounterAfterStep := by
  refine fun s => ⟨fun hr => ?held, fun hr hf => ?noWord, fun op space hr hf hd => ?noOp, fun op i hr hf hd => ?instr⟩
  case held => exact ⟨s, step_of_not_running s hr, rfl⟩
  case noWord => exact ⟨_, step_of_fetchWord_eq_none hr hf, rfl⟩
  case noOp => exact ⟨_, step_of_decode_noOp hr hf hd, rfl⟩
  case instr =>
    obtain ⟨t, ht, hc⟩ := exec_faults_or_completes i s
    exact ⟨t, (step_of_decode_instr hr hf hd).trans ht, hc.pc_eq⟩

/-- Settles O14: holding, faulting at the fetch and the no-op are next states by definition, and every instruction answers
one. -/
theorem stepAlwaysAnswersNext : Obligations.StepAlwaysAnswersNext := by
  intro s
  by_cases hr : s.runState = .running
  · cases hf : s.fetchWord with
    | none => exact ⟨_, step_of_fetchWord_eq_none hr hf⟩
    | some op =>
      cases hd : decode op with
      | instr i =>
        obtain ⟨t, ht, -⟩ := exec_faults_or_completes i s
        exact ⟨t, (step_of_decode_instr hr hf hd).trans ht⟩
      | noOp space => exact ⟨_, step_of_decode_noOp hr hf hd⟩
  · exact ⟨s, step_of_not_running s hr⟩

/-! ### current_instruction (R92) -/

/-- A step that fetches a word and leaves the machine Running records the fields of that word. -/
theorem cur_of_step {s t : State} {op : Word} (hf : s.fetchWord = some op) (hstep : step s = .next t)
    (hs : s.runState = .running) (ht : t.runState = .running) : t.cur = fieldsOf op := by
  obtain ⟨hn, -⟩ | ⟨-, hnone, -⟩ | ⟨-, op', i, hf', hd, hexec⟩ | ⟨-, op', _, hf', -, rfl⟩ := step_cases s t hstep
  · exact absurd hs hn
  · simp [hf] at hnone
  · cases hf.symm.trans hf'
    obtain ⟨kind, -, rfl⟩ | hc := faultsOrCompletes_of_exec hexec
    · simp at ht
    · rw [hc.cur, encode_of_decode hd]
  · cases hf.symm.trans hf'
    exact stage_cur s op

/-- Settles O15: current_instruction holds `fieldsOf` of the word fetched, whose fields are these slices (R71). -/
theorem currentInstructionRecordsTheFetch : Obligations.CurrentInstructionRecordsTheFetch := by
  intro s t op hs hf hstep ht
  rw [cur_of_step hf hstep hs ht]
  exact ⟨rfl, rfl, rfl, rfl, rfl, rfl⟩

/-! ### What a step runs (R90, R91, R94) -/

/-- Settles O6: with PC + 1 inside memory the fetch reads the two bytes at PC. -/
theorem stepRunsTheDecodedInstruction : Obligations.StepRunsTheDecodedInstruction :=
  fun s _ hr hpc hd => step_of_decode_instr hr (fetchWord_of_lt s hpc) hd

/-- Settles O7: a word that matches no row decodes to the no-op, which only stages. -/
theorem noOpWordOnlyStages : Obligations.NoOpWordOnlyStages := by
  intro s op hr hf hno
  obtain ⟨space, hd⟩ := (decode_eq_noOp_iff op).mpr fun r hmem => (r.matchesWord_eq_false_iff op).mpr (hno r hmem)
  exact step_of_decode_noOp hr hf hd

/-- Settles O8: only a Running machine fetches. -/
theorem stepHoldsUnlessRunning : Obligations.StepHoldsUnlessRunning :=
  step_of_not_running

end Sys2Proof.Machine
end

section
/-! PROOFS. Control flow: what an instruction without a fault leaves (`exec_of_faultOf_eq_none`) and what one with a
fault does (`exec_of_faultOf_eq_some`), the slots and the cursor of the stack after 00EE and 2NNN, and from these the
jumps, the skips, the call and the return. -/

namespace Sys2Proof.Machine

open Sys2Proof

/-! ### By the fault table R210 -/

/-- An instruction without a fault moves PC by the table R95, records its word, and writes only components of its row of
R38, the run state not among them. -/
theorem exec_of_faultOf_eq_none {i : Instr} {s : State} (h : faultOf i s = none) :
    ∃ t, exec i s = .next t ∧ t.pc = pcAfter i s ∧ t.cur = fieldsOf (encode i) ∧
      KeepsAllBut ((writableComponents i).filter (· ≠ .runState)) s t := by
  obtain ⟨t, ht, ⟨kind, hkind, -⟩ | hc⟩ := exec_faults_or_completes i s
  · simp [h] at hkind
  · refine ⟨t, ht, hc.pc, hc.cur, fun c hmem => ?_⟩
    by_cases hrun : c = .runState
    · subst hrun
      exact ⟨hc.runState, hc.fault⟩
    · exact keepsAllBut_of_exec ht c fun hw => hmem (by simp [hw, hrun])

theorem exec_of_faultOf_eq_some {i : Instr} {s : State} {kind : FaultKind} (h : faultOf i s = some kind) :
    exec i s = .next (s.raise kind (encode i)) := by
  obtain ⟨t, ht, ⟨kind', hkind, rfl⟩ | hc⟩ := exec_faults_or_completes i s
  · cases h.symm.trans hkind
    exact ht
  · exact nomatch h.symm.trans hc.noFault

/-! ### Jumps and skips (R103, R105 to R109) -/

/-- Settles O24: neither jump can fault, and a byte and 12 bits, each extended to 16, add up without a carry out. -/
theorem jumpsSetPc : Obligations.JumpsSetPc := by
  intro nnn s
  constructor
  · obtain ⟨t, ht, hpc, hrest⟩ := exec_of_faultOf_eq_none (i := .jp nnn) (s := s) rfl
    refine ⟨t, ht, ?_, hrest⟩
    rw [hpc, pcAfter, BitVec.toNat_setWidth_of_le (by decide)]
  · obtain ⟨t, ht, hpc, hrest⟩ := exec_of_faultOf_eq_none (i := .jpV0 nnn) (s := s) rfl
    refine ⟨t, ht, ?_, hrest⟩
    have hv := (s.getV 0).isLt
    have hn := nnn.isLt
    rw [hpc, pcAfter, BitVec.toNat_add, BitVec.toNat_setWidth_of_le (by decide),
      BitVec.toNat_setWidth_of_le (by decide)]
    omega

/-- Settles O25: no skip can fault, and 4XNN has the two rows of 3XNN in the other order. -/
theorem skipsCompareWithTheByte : Obligations.SkipsCompareWithTheByte := by
  intro x nn s
  have hsne := exec_of_faultOf_eq_none (i := .sneByte x nn) (s := s) rfl
  rw [pcAfter, ite_not] at hsne
  exact ⟨exec_of_faultOf_eq_none rfl, hsne⟩

/-- Settles O26: no skip can fault, and 9XY0 has the two rows of 5XY0 in the other order. -/
theorem skipsCompareRegisters : Obligations.SkipsCompareRegisters := by
  intro x y s
  have hsne := exec_of_faultOf_eq_none (i := .sneReg x y) (s := s) rfl
  rw [pcAfter, ite_not] at hsne
  exact ⟨exec_of_faultOf_eq_none rfl, hsne⟩

/-! ### Return and call (R102, R104) -/

/-- A return that has an entry to pop lowers the cursor and clears no slot. -/
theorem stack_of_exec_ret {s t : State} (h : exec .ret s = .next t) (hsp : 0 < s.sp.val) :
    t.sp.val = s.sp.val - 1 ∧ t.stack = s.stack := by
  simp only [exec, execRet] at h
  split at h <;> cases h
  · next hpop =>
    obtain ⟨-, -, hcursor, hslots⟩ := pop_spec _ _ _ hpop
    exact ⟨hcursor, (congrArg State.stack hslots :)⟩
  · next hpop =>
    have : s.sp.val = 0 := (pop_eq_none_iff (s.stage _)).mp hpop
    omega

/-- A call that has a slot left raises the cursor and writes the address after it into that slot alone. -/
theorem stack_of_exec_call {nnn : Addr} {s t : State} (h : exec (.call nnn) s = .next t) (hsp : s.sp.val < 12) :
    t.sp.val = s.sp.val + 1 ∧
      ∀ k, k < 12 → t.stack.toList.getD k 0 = if k = s.sp.val then s.pc + 2 else s.stack.toList.getD k 0 := by
  simp only [exec, execCall] at h
  split at h <;> cases h
  · next hpush =>
    obtain ⟨-, hcursor, hslots, -⟩ := push_spec _ _ _ hpush
    exact ⟨hcursor, hslots⟩
  · next hpush =>
    have : s.sp.val = 12 := (push_eq_none_iff (s.stage _) _).mp hpush
    omega

/-- Settles O21: SP = 0 is where the table R210 has the underflow; elsewhere PC takes the top entry. -/
theorem returnPopsIntoPc : Obligations.ReturnPopsIntoPc := by
  intro s
  constructor
  · intro hsp
    obtain ⟨t, ht, hpc, hcur, hkeeps⟩ := exec_of_faultOf_eq_none (i := .ret) (if_neg (Nat.ne_of_gt hsp))
    obtain ⟨hcursor, hslots⟩ := stack_of_exec_ret ht hsp
    exact ⟨t, ht, hpc, hcursor, hslots, hcur, hkeeps⟩
  · intro hsp
    exact ⟨_, exec_of_faultOf_eq_some (if_pos hsp), rfl⟩

/-- Settles O22: SP = 12 is where the table R210 has the overflow; elsewhere the slot at SP takes the address after the
call. -/
theorem callPushesTheNextAddress : Obligations.CallPushesTheNextAddress := by
  intro nnn s
  constructor
  · intro hsp
    obtain ⟨t, ht, hpc, hcur, hkeeps⟩ := exec_of_faultOf_eq_none (i := .call nnn) (if_neg (Nat.ne_of_lt hsp))
    obtain ⟨hcursor, hslots⟩ := stack_of_exec_call ht hsp
    have htop := (hslots s.sp.val hsp).trans (if_pos rfl)
    exact ⟨t, ht, hpc, hcursor, htop, fun k hk hne => (hslots k hk).trans (if_neg hne), hcur, hkeeps⟩
  · intro hsp
    exact ⟨_, exec_of_faultOf_eq_some (if_pos hsp), rfl⟩

/-- Settles O23: the return pops the slot that the call wrote, at the cursor the call raised. -/
theorem callThenReturnComesBack : Obligations.CallThenReturnComesBack := by
  intro nnn s hsp
  obtain ⟨t, hcall, -, hraised, htop, -⟩ := (callPushesTheNextAddress nnn s).1 hsp
  obtain ⟨u, hret, hpc, hlowered, -⟩ := (returnPopsIntoPc t).1 (by omega)
  rw [hraised, Nat.add_sub_cancel] at hpc hlowered
  exact ⟨t, u, hcall, hret, hpc.trans htop, Fin.ext hlowered⟩

end Sys2Proof.Machine
end

section
/-! PROOFS. The register file and the ALU: what every instruction that writes only general registers leaves
(`registerFrame_of_exec`), what a flag-setting operation leaves in V[X] and VF (`flagOp_sequential_table` and its like),
the flags and the results as numbers, and from these the statements of the spec's section 42. -/

namespace Sys2Proof.Machine

open Sys2Proof

/-! ### Instructions that write only general registers -/

/-- An instruction without a fault whose rows of R38 and R95 are the general registers and the advance by 2 changes
nothing but the registers listed, PC and current_instruction. -/
theorem registerFrame_of_exec {i : Instr} {s t : State} {changed : List Reg} (h : exec i s = .next t)
    (hfault : faultOf i s = none := by rfl) (hpc : pcAfter i s = s.pc + 2 := by rfl)
    (hwrites : writableComponents i = [.registers] := by rfl)
    (hregs : ∀ r, r ∉ changed → mayWriteReg i r = false := by simp [mayWriteReg]) :
    KeepsRegsBut changed s t ∧ Advances i s t ∧ KeepsAllBut [.registers] s t := by
  obtain ⟨kind, hkind, -⟩ | hc := faultsOrCompletes_of_exec h
  · exact nomatch hfault.symm.trans hkind
  · exact ⟨fun r hr => getV_of_exec h (hregs r hr), ⟨hc.pc.trans hpc, hc.cur⟩, hwrites ▸ keepsAllBut_of_exec h⟩

/-! ### What a flag-setting operation leaves (R120, R121, R135) -/

section FlagOp

variable (flag : Byte → Byte → Bool) (result : Byte → Byte → Byte) {x y : Reg} (s : State)

/-- VF keeps the flag unless V[x], which is written last, is VF. -/
theorem getV_flagOp_VF (mode : AluAlias) (hx : x ≠ VF) :
    (s.flagOp mode flag result x y).getV VF = flagByte (flag (s.getV x) (s.getV y)) := by
  obtain ⟨b, hb⟩ := flagOp_eq mode flag result x y s
  rw [hb, getV_setV_ne _ _ _ _ hx.symm, getV_setV_self]

theorem getV_flagOp_snapshot : (s.flagOp .snapshot flag result x y).getV x = result (s.getV x) (s.getV y) :=
  getV_setV_self _ _ _

/-- Under `sequential` an operand of the result that is VF is the new flag. -/
theorem getV_flagOp_sequential {f : Byte} (hf : flagByte (flag (s.getV x) (s.getV y)) = f) :
    (s.flagOp .sequential flag result x y).getV x =
      result (if x = VF then f else s.getV x) (if y = VF then f else s.getV y) := by
  rw [State.flagOp, getV_setV_self, getV_setV, getV_setV, hf]

/-- The columns `sequential` of R135: V[x] and VF for each of the four ways x and y can name VF. -/
theorem flagOp_sequential_table {f : Byte} (hf : flagByte (flag (s.getV x) (s.getV y)) = f) {t : State}
    (ht : s.flagOp .sequential flag result x y = t) :
    (x ≠ VF ∧ y ≠ VF → t.getV x = result (s.getV x) (s.getV y) ∧ t.getV VF = f) ∧
    (x ≠ VF ∧ y = VF → t.getV x = result (s.getV x) f ∧ t.getV VF = f) ∧
    (x = VF ∧ y ≠ VF → t.getV VF = result f (s.getV y)) ∧
    (x = VF ∧ y = VF → t.getV VF = result f f) := by
  have hresult := getV_flagOp_sequential flag result s hf
  have hflag (hx : x ≠ VF) := (getV_flagOp_VF flag result (y := y) s .sequential hx).trans hf
  rw [ht] at hresult hflag
  refine ⟨fun ⟨hx, hy⟩ => ⟨?_, hflag hx⟩, fun ⟨hx, hy⟩ => ⟨?_, hflag hx⟩, fun ⟨hx, hy⟩ => ?_, fun ⟨hx, hy⟩ => ?_⟩
  · rwa [if_neg hx, if_neg hy] at hresult
  · rwa [if_neg hx, if_pos hy] at hresult
  · rwa [if_pos hx, if_neg hy, hx] at hresult
  · rwa [if_pos hx, if_pos hy, hx] at hresult

end FlagOp

/-! ### Flags and results as numbers -/

theorem flagByte_decide (p : Prop) [Decidable p] : flagByte (decide p) = if p then 1 else 0 := by
  simp [flagByte]

theorem toNat_flagByte (b : Bool) : (flagByte b).toNat = b.toNat := by
  cases b <;> rfl

/-- Two bytes, each extended to 16 bits, add up without a carry out (R128). -/
theorem toNat_zextByte_add (a b : Byte) : (zextByte a + zextByte b).toNat = a.toNat + b.toNat := by
  have ha := a.isLt
  have hb := b.isLt
  rw [BitVec.toNat_add, zextByte, zextByte, BitVec.toNat_setWidth_of_le (by decide),
    BitVec.toNat_setWidth_of_le (by decide)]
  omega

theorem toNat_sumByte (a b : Byte) : (sumByte a b).toNat = (a.toNat + b.toNat) % 256 := by
  rw [sumByte, BitVec.toNat_setWidth, toNat_zextByte_add]

theorem flagByte_carryFlag (a b : Byte) : flagByte (carryFlag a b) = if 255 < a.toNat + b.toNat then 1 else 0 := by
  rw [carryFlag, toNat_zextByte_add, flagByte_decide]

theorem toNat_shiftRight_one (a : Byte) : (a >>> 1).toNat = a.toNat / 2 := by
  rw [BitVec.toNat_ushiftRight, Nat.shiftRight_one]

theorem toNat_shiftLeft_one (a : Byte) : (a <<< 1).toNat = 2 * a.toNat % 256 := by
  rw [BitVec.toNat_shiftLeft, Nat.shiftLeft_eq, Nat.mul_comm]

theorem toNat_flagByte_shiftRightFlag (a : Byte) : (flagByte (shiftRightFlag a)).toNat = a.toNat % 2 := by
  rw [toNat_flagByte, shiftRightFlag, BitVec.getLsbD, Nat.toNat_testBit, Nat.pow_zero, Nat.div_one]

/-- Bit 7 is the topmost of a byte. -/
theorem toNat_flagByte_shiftLeftFlag (a : Byte) : (flagByte (shiftLeftFlag a)).toNat = a.toNat / 128 := by
  have ha := a.isLt
  rw [toNat_flagByte, shiftLeftFlag, BitVec.getLsbD, Nat.toNat_testBit]
  omega

theorem flagByte_shiftRight_one (b : Bool) : flagByte b >>> 1 = 0 := by
  cases b <;> rfl

theorem toNat_flagByte_shiftLeft_one (b : Bool) : (flagByte b <<< 1).toNat = 2 * (flagByte b).toNat := by
  cases b <;> rfl

/-! ### Subtractions and shifts under `sequential` (R129 to R132) -/

/-- Settles O30: the columns `sequential` of R135 for V[X] - V[Y]; with X = Y = F the flag is taken from itself. -/
theorem subtractSetsNoBorrow : Obligations.SubtractSetsNoBorrow := by
  intro x y s
  obtain ⟨hoff, hyVF, hxVF, hboth⟩ := flagOp_sequential_table noBorrowFlag (fun a b => a - b)
    (s.stage (encode (.subReg x y))) (x := x) (y := y) (flagByte_decide _) rfl
  exact ⟨_, _, rfl, rfl, hoff, hyVF, hxVF, fun h => (hboth h).trans (BitVec.sub_self _), registerFrame_of_exec rfl⟩

/-- Settles O31: the columns `sequential` of R135 for V[Y] - V[X]; with X = Y = F the flag is taken from itself. -/
theorem reverseSubtractSetsNoBorrow : Obligations.ReverseSubtractSetsNoBorrow := by
  intro x y s
  obtain ⟨hoff, hyVF, hxVF, hboth⟩ := flagOp_sequential_table (fun a b => noBorrowFlag b a) (fun a b => b - a)
    (s.stage (encode (.subnReg x y))) (x := x) (y := y) (flagByte_decide _) rfl
  exact ⟨_, _, rfl, rfl, hoff, hyVF, hxVF, fun h => (hboth h).trans (BitVec.sub_self _), registerFrame_of_exec rfl⟩

/-- Settles O32: a shift has V[X] for both operands, so only the first and the last case of R135 arise. -/
theorem shiftsMoveABitIntoVF : Obligations.ShiftsMoveABitIntoVF := by
  intro x y s
  constructor
  · obtain ⟨hoff, -, -, hVF⟩ := flagOp_sequential_table (fun a _ => shiftRightFlag a) (fun a _ => a >>> 1)
      (s.stage (encode (.shrReg x y))) (x := x) (y := x) rfl rfl
    refine ⟨_, rfl, fun hx => ?_, fun hx => ?_, registerFrame_of_exec rfl⟩
    · rw [← toNat_shiftRight_one, ← toNat_flagByte_shiftRightFlag]
      exact (hoff ⟨hx, hx⟩).imp (congrArg _) (congrArg _)
    · exact (hVF ⟨hx, hx⟩).trans (flagByte_shiftRight_one _)
  · obtain ⟨hoff, -, -, hVF⟩ := flagOp_sequential_table (fun a _ => shiftLeftFlag a) (fun a _ => a <<< 1)
      (s.stage (encode (.shlReg x y))) (x := x) (y := x) rfl rfl
    refine ⟨_, rfl, fun hx => ?_, fun hx => ?_, registerFrame_of_exec rfl⟩
    · rw [← toNat_shiftLeft_one, ← toNat_flagByte_shiftLeftFlag]
      exact (hoff ⟨hx, hx⟩).imp (congrArg _) (congrArg _)
    · subst hx
      rw [← toNat_flagByte_shiftLeftFlag, ← toNat_flagByte_shiftLeft_one]
      exact congrArg _ (hVF ⟨rfl, rfl⟩)

/-! ### The two readings of ALU_ALIAS (R120) -/

/-- Settles O33: off VF both readings give the same two writes, and under both the second is that of V[X]. -/
theorem aliasReadingsAgreeOffVF : Obligations.AliasReadingsAgreeOffVF := by
  intro flag result x y s
  refine ⟨fun hx hy => ?_, fun mode => flagOp_eq mode flag result x y s⟩
  rw [flagOp_of_ne_VF .sequential _ _ _ _ _ hx hy, flagOp_of_ne_VF .snapshot _ _ _ _ _ hx hy]

/-- Settles O34: V[X] is written last, with the result of the operands before. -/
theorem snapshotReadingUsesOldOperands : Obligations.SnapshotReadingUsesOldOperands :=
  fun flag result _ _ s => ⟨getV_flagOp_snapshot flag result s, getV_flagOp_VF flag result s .snapshot⟩

/-! ### Loads, logic and the sum (R122 to R128) -/

/-- Settles O27: each is one register write, and a sum of bytes is the sum of naturals modulo 256. -/
theorem loadAddImmediateAndCopy : Obligations.LoadAddImmediateAndCopy := by
  intro x y nn s
  refine ⟨⟨_, rfl, getV_setV_self _ _ _, registerFrame_of_exec rfl⟩, ⟨_, rfl, ?_, registerFrame_of_exec rfl⟩,
    ⟨_, rfl, getV_setV_self _ _ _, registerFrame_of_exec rfl⟩⟩
  rw [getV_setV_self, BitVec.toNat_add]

/-- Settles O28: each is one register write, and VF is no destination unless X names it. -/
theorem logicLeavesVF : Obligations.LogicLeavesVF := by
  intro x y s
  exact ⟨⟨_, rfl, getV_setV_self _ _ _, registerFrame_of_exec rfl⟩,
    ⟨_, rfl, getV_setV_self _ _ _, registerFrame_of_exec rfl⟩,
    ⟨_, rfl, getV_setV_self _ _ _, registerFrame_of_exec rfl⟩⟩

/-- Settles O29: 8XY4 reads its operands before the VF write, and the 16-bit sum of two bytes is exact. -/
theorem addSetsCarry : Obligations.AddSetsCarry := by
  intro x y s
  refine ⟨_, rfl, ?_, fun hx => ?_, registerFrame_of_exec rfl⟩
  · rw [getV_flagOp_snapshot, toNat_sumByte, stage_getV, stage_getV]
  · rw [getV_flagOp_VF _ _ _ _ hx, flagByte_carryFlag, stage_getV, stage_getV]

end Sys2Proof.Machine
end

section
/-! PROOFS. The index register and memory: what every instruction that advances and does not fault leaves
(`frame_of_exec`), reads inside and outside a stored run of bytes, the three digits of a byte, a register after a load,
and from these ANNN, FX29, FX33, FX55 and FX65. -/

namespace Sys2Proof.Machine

open Sys2Proof

/-! ### What an advancing instruction leaves (R38, R95) -/

/-- An instruction without a fault whose row of R95 is the advance by 2 writes PC, current_instruction and the
components of its row of R38, the run state not among them. -/
theorem frame_of_exec {i : Instr} {s t : State} {changed : List Component} (h : exec i s = .next t)
    (hfault : faultOf i s = none := by rfl) (hpc : pcAfter i s = s.pc + 2 := by rfl)
    (hwrites : (writableComponents i).filter (· ≠ .runState) = changed := by rfl) :
    Advances i s t ∧ KeepsAllBut changed s t := by
  obtain ⟨u, hu, hpcu, hcur, hkeeps⟩ := exec_of_faultOf_eq_none hfault
  cases hu.symm.trans h
  exact ⟨⟨hpcu.trans hpc, hcur⟩, hwrites ▸ hkeeps⟩

/-! ### Loads of I (R150, R152) -/

/-- Settles O36: NNN fits I, and the largest byte times 5 is 1275, which fits it too. -/
theorem indexLoads : Obligations.IndexLoads := by
  constructor
  · intro nnn s
    refine ⟨_, rfl, ?_, frame_of_exec rfl⟩
    rw [setI_i, zextAddr, BitVec.toNat_setWidth_of_le (by decide)]
  · intro x s
    refine ⟨_, rfl, ?_, frame_of_exec rfl⟩
    have hv := (s.getV x).isLt
    have hfive : (5 : Word).toNat = 5 := rfl
    rw [setI_i, BitVec.toNat_mul, zextByte, BitVec.toNat_setWidth_of_le (by decide), hfive]
    omega

/-! ### Reads of a stored run of bytes -/

theorem readByte_writeBytes_add (s : State) (a : Nat) {bs : List Byte} {k : Nat} (h : k < bs.length) :
    (s.writeBytes a bs).readByte (a + k) = bs.getD k 0 := by
  rw [readByte_writeBytes, if_pos (by omega), Nat.add_sub_cancel_left]

theorem readByte_writeBytes_outside (s : State) {a b : Nat} {bs : List Byte} (h : b < a ∨ a + bs.length ≤ b) :
    (s.writeBytes a bs).readByte b = s.readByte b := by
  rw [readByte_writeBytes, if_neg (by omega)]

/-! ### FX33 (R153, R154) -/

/-- The digits of a byte, each below 256, are held without truncation. -/
theorem toNat_decimalDigits (v : Byte) :
    (decimalDigits v).map BitVec.toNat = [v.toNat / 100, v.toNat / 10 % 10, v.toNat % 10] := by
  have hv := v.isLt
  simp only [decimalDigits, List.map_cons, List.map_nil, BitVec.toNat_ofNat, List.cons.injEq, and_true]
  omega

theorem exec_ldBVx_of_lt {x : Reg} {s : State} (h : s.i.toNat + 2 < 0x1000) :
    exec (.ldBVx x) s =
      .next ((s.stage (encode (.ldBVx x))).writeBytes s.i.toNat (decimalDigits (s.getV x))) :=
  if_pos ((inMemory_iff _).mpr h)

/-- The three bytes from an address up after the digits of a byte are stored there. -/
theorem readByte_writeBytes_decimalDigits (s : State) (a : Nat) (v : Byte) {k : Nat} (hk : k < 3) :
    ((s.writeBytes a (decimalDigits v)).readByte (a + k)).toNat =
      [v.toNat / 100, v.toNat / 10 % 10, v.toNat % 10].getD k 0 := by
  rw [readByte_writeBytes_add s a hk, ← toNat_decimalDigits]
  exact (List.getD_map _ _ BitVec.toNat).symm

/-- Settles O38: I + 2 at or past 0x1000 is where the table R210 has the fault; elsewhere the three digits are stored as
one run. -/
theorem decimalDigitsAreStored : Obligations.DecimalDigitsAreStored := by
  intro x s
  constructor
  · intro h
    have hexec := exec_ldBVx_of_lt (x := x) h
    have hdigit (k : Nat) (hk : k < 3) :=
      readByte_writeBytes_decimalDigits (s.stage (encode (.ldBVx x))) s.i.toNat (s.getV x) hk
    exact ⟨_, hexec, hdigit 0 (by decide), hdigit 1 (by decide), hdigit 2 (by decide),
      fun a ha => readByte_writeBytes_outside (s.stage _) ha, frame_of_exec hexec (if_neg (Nat.not_le.mpr h))⟩
  · intro h
    exact ⟨_, exec_of_faultOf_eq_some (if_pos h), rfl⟩

/-! ### FX55 (R155) -/

/-- Settles O39: I + X at or past 0x1000 is where the table R210 has the fault; elsewhere X + 1 registers are stored as
one run. -/
theorem registersAreStored : Obligations.RegistersAreStored := by
  intro x s
  constructor
  · intro h
    have hexec := exec_storeRegs_of_lt h
    refine ⟨_, hexec, fun k hk => readByte_writeBytes_firstRegs s _ _ hk, fun a ha => ?_,
      frame_of_exec hexec (if_neg (Nat.not_le.mpr h))⟩
    refine readByte_writeBytes_outside (s.stage _) ?_
    rw [length_firstRegs s _ x.isLt]
    exact ha
  · intro h
    exact ⟨_, exec_of_faultOf_eq_some (if_pos h), rfl⟩

/-! ### FX65 (R156) -/

theorem exec_loadRegs_of_lt {x : Reg} {s : State} (h : s.i.toNat + x.toNat < 0x1000) :
    exec (.loadRegs x) s =
      .next ((s.stage (encode (.loadRegs x))).setRegsFrom 0 (s.mem.readBytes s.i.toNat (x.toNat + 1))) :=
  if_pos ((inMemory_iff _).mpr h)

/-- V[k] after the bytes from an address up are loaded into V[0], ..., V[x]. -/
theorem getV_setRegsFrom_readBytes (s : State) (m : Memory) (a : Nat) {x k : Reg} (hk : k.toNat ≤ x.toNat) :
    (s.setRegsFrom 0 (m.readBytes a (x.toNat + 1))).getV k = m.read (a + k.toNat) := by
  have hlen := Memory.length_readBytes m a (x.toNat + 1)
  rw [getV_setRegsFrom _ _ _ (by omega), if_pos (by omega), Nat.sub_zero, Memory.getD_readBytes _ _ _ _ (by omega)]

/-- Settles O40: I + X at or past 0x1000 is where the table R210 has the fault; elsewhere X + 1 bytes are loaded as one
run, and no register above X is a destination. -/
theorem registersAreLoaded : Obligations.RegistersAreLoaded := by
  intro x s
  constructor
  · intro h
    have hexec := exec_loadRegs_of_lt h
    exact ⟨_, hexec, fun k hk => getV_setRegsFrom_readBytes _ _ _ hk,
      fun k hk => getV_of_exec hexec (by simpa [mayWriteReg] using hk),
      frame_of_exec hexec (if_neg (Nat.not_le.mpr h))⟩
  · intro h
    exact ⟨_, exec_of_faultOf_eq_some (if_pos h), rfl⟩

end Sys2Proof.Machine
end

section
/-! PROOFS. The display: the sprite that DXYN draws and what it depends on, the whole effect of a completed DXYN
(`exec_drw_of_spriteInMemory`), and from these 00E0 and DXYN. -/

namespace Sys2Proof.Machine

open Sys2Proof

/-- Settles O42: the blank display is the one thing written beside the staging. -/
theorem clearTurnsEveryCellOff : Obligations.ClearTurnsEveryCellOff :=
  fun _ => ⟨_, rfl, fun px py _ _ => pixel_blank px py, frame_of_exec rfl⟩

/-! ### The flag byte -/

theorem flagByte_eq_one_iff (b : Bool) : flagByte b = 1 ↔ b = true := by
  cases b <;> decide

theorem flagByte_eq_zero_or_one (b : Bool) : flagByte b = 0 ∨ flagByte b = 1 := by
  cases b <;> decide

/-! ### The sprite (R171, R172) -/

section Sprite

variable {s t : State} {x y : Reg} {n : Nibble}

theorem spriteInMemory_iff :
    s.spriteInMemory y n = true ↔ s.drawnRows y n = 0 ∨ s.i.toNat + s.drawnRows y n - 1 < 0x1000 := by
  simp [State.spriteInMemory]

/-- The last row drawn has the highest address, so checking it checks each row above the bottom edge. -/
theorem spriteInMemory_iff_forall_row :
    s.spriteInMemory y n = true ↔
      ∀ r, r < n.toNat → (s.getV y).toNat % 32 + r < 32 → s.i.toNat + r < 0x1000 := by
  rw [spriteInMemory_iff, State.drawnRows, State.originY]
  constructor
  · intro h r hrn hr
    omega
  · intro h
    have hlast := h (min n.toNat (32 - (s.getV y).toNat % 32) - 1)
    omega

/-- Inside the display, clipping the rows at the bottom edge changes no sprite bit. -/
theorem spriteBitAt_eq_spriteBit {px py : Nat} (hy : py < 32) :
    spriteBitAt s.mem (s.originX x) (s.originY y) s.i.toNat n.toNat px py = s.spriteBit x y n px py := by
  have hclip : py < s.originY y + n.toNat ↔ py < s.originY y + s.drawnRows y n := by
    rw [State.drawnRows]
    omega
  simp only [State.spriteBit, spriteBitAt, hclip]

theorem pixel_drawSprite {px py : Nat} (hx : px < 64) (hy : py < 32) :
    (s.drawSprite x y n).1.pixel px py = (s.display.pixel px py ^^ s.spriteBit x y n px py) := by
  rw [State.drawSprite, pixel_drawRows _ _ _ _ _ _ _ _ hx hy, spriteBitAt_eq_spriteBit hy]

theorem collides_drawSprite :
    (s.drawSprite x y n).2 = true ↔
      ∃ px py, px < 64 ∧ py < 32 ∧ s.spriteBit x y n px py = true ∧ s.display.pixel px py = true := by
  rw [State.drawSprite, collides_drawRows, or_iff_right Bool.false_ne_true]
  refine exists₂_congr fun px py => and_congr_right fun _ => and_congr_right fun hy => ?_
  rw [spriteBitAt_eq_spriteBit hy]

theorem spriteInMemory_congr (hi : t.i = s.i) (hy : t.originY y = s.originY y) :
    t.spriteInMemory y n = s.spriteInMemory y n := by
  rw [State.spriteInMemory, State.spriteInMemory, State.drawnRows, State.drawnRows, hi, hy]

/-- The sprite is a function of memory, I and the origin. -/
theorem spriteBit_congr (hmem : Component.memory.Same s t) (hi : t.i = s.i) (hx : t.originX x = s.originX x)
    (hy : t.originY y = s.originY y) (px py : Nat) : t.spriteBit x y n px py = s.spriteBit x y n px py := by
  have hread (a : Nat) : t.mem.read a = s.mem.read a := hmem a
  rw [State.spriteBit, State.spriteBit, State.drawnRows, State.drawnRows, hi, hx, hy]
  simp only [spriteBitAt, hread]

end Sprite

/-! ### DXYN (R171, R172, R174) -/

/-- The whole effect of a DXYN whose rows lie in memory: the drawn display, the collision in VF, PC and
current_instruction. -/
theorem exec_drw_of_spriteInMemory (x : Reg) {y : Reg} {n : Nibble} {s : State} (h : s.spriteInMemory y n = true) :
    ∃ t, exec (.drw x y n) s = .next t ∧
      (∀ px py, px < 64 → py < 32 →
        t.display.pixel px py = (s.display.pixel px py ^^ s.spriteBit x y n px py)) ∧
      (t.getV VF = 0 ∨ t.getV VF = 1) ∧
      (t.getV VF = 1 ↔
        ∃ px py, px < 64 ∧ py < 32 ∧ s.spriteBit x y n px py = true ∧ s.display.pixel px py = true) ∧
      Advances (.drw x y n) s t ∧ KeepsAllBut [.display, .registers] s t := by
  have hexec : exec (.drw x y n) s =
      .next (((s.stage (encode (.drw x y n))).setDisplay (s.drawSprite x y n).1).setV VF
        (flagByte (s.drawSprite x y n).2)) := if_pos h
  refine ⟨_, hexec, fun px py hx hy => pixel_drawSprite hx hy, ?_, ?_,
    frame_of_exec hexec ((faultOf_drw s x y n).trans (if_pos h))⟩
  · rw [getV_setV_self]
    exact flagByte_eq_zero_or_one _
  · rw [getV_setV_self, flagByte_eq_one_iff, collides_drawSprite]

/-- Settles O43: a row above the bottom edge lies past memory exactly where the table R210 has the fault; elsewhere the
collision decides VF, and VF is the one register DXYN writes. -/
theorem drawXorsTheClippedSprite : Obligations.DrawXorsTheClippedSprite := by
  intro x y n s
  constructor
  · intro hrows
    obtain ⟨t, ht, hpixel, hflag, hcollides, hrest⟩ :=
      exec_drw_of_spriteInMemory x (spriteInMemory_iff_forall_row.mpr hrows)
    refine ⟨t, ht, hpixel, hcollides.mpr, fun hoff => hflag.resolve_right fun hVF => ?_,
      fun r hr => getV_of_exec ht (by simpa [mayWriteReg] using hr), hrest⟩
    obtain ⟨px, py, hx, hy, hbit, hon⟩ := hcollides.mp hVF
    exact Bool.false_ne_true ((hoff px py hx hy hbit).symm.trans hon)
  · intro r hrn hr hpast
    have hout : ¬s.spriteInMemory y n = true := fun hin =>
      Nat.not_lt.mpr hpast (spriteInMemory_iff_forall_row.mp hin r hrn hr)
    exact ⟨_, exec_of_faultOf_eq_some ((faultOf_drw s x y n).trans (if_neg hout)), rfl⟩

/-- A sprite bit meets a cell it has just flipped on exactly when the flip turned the cell on. -/
theorem bit_and_flipped_iff (old bit : Bool) :
    bit = true ∧ (old ^^ bit) = true ↔ old = false ∧ (old ^^ bit) = true := by
  cases old <;> cases bit <;> decide

/-- Settles O44: the first draw leaves memory and I, so the second draws the same sprite, and XOR is its own inverse. -/
theorem drawTwiceRestoresTheDisplay : Obligations.DrawTwiceRestoresTheDisplay := by
  intro x y n s hrows
  have hin := spriteInMemory_iff.mpr hrows
  obtain ⟨t, ht, hpixel, hflag, hcollides, -, hkeeps⟩ := exec_drw_of_spriteInMemory x hin
  refine ⟨t, ht, hflag, hcollides, fun hx hy => ?_⟩
  have hi : t.i = s.i := hkeeps .index (by decide)
  have hsprite := spriteBit_congr (n := n) (hkeeps .memory (by decide)) hi hx hy
  obtain ⟨u, hu, hpixel', hflag', hcollides', -, -⟩ :=
    exec_drw_of_spriteInMemory x ((spriteInMemory_congr hi hy).trans hin)
  refine ⟨u, hu, display_ext _ _ fun px py hpx hpy => ?_, hflag', hcollides'.trans ?_⟩
  · rw [hpixel' px py hpx hpy, hpixel px py hpx hpy, hsprite, Bool.xor_assoc, Bool.xor_self, Bool.xor_false]
  · refine exists₂_congr fun px py => and_congr_right fun hpx => and_congr_right fun hpy => ?_
    rw [hsprite, hpixel px py hpx hpy]
    exact bit_and_flipped_iff _ _

end Sys2Proof.Machine
end

section
/-! PROOFS. The keypad: the key that V[X] names (`keyOfReg_eq_keyDown`), the key that FX0A finds
(`lowestKeyDown_eq_some`), and from these EX9E, EXA1 and FX0A. -/

namespace Sys2Proof.Machine

open Sys2Proof

/-! ### Skips on a key (R190 to R192) -/

theorem keyOfReg_eq_keyDown {s : State} {x k : Reg} (h : (s.getV x).toNat = k.toNat) : s.keyOfReg x = s.keyDown k := by
  have hk := k.isLt
  simp [State.keyOfReg, State.keyDown, List.getD_eq_getElem?_getD, h, hk]

/-- Settles O46: V[X] above 0x0F is where the table R210 has the fault; elsewhere the table R95 reads the key that V[X]
names, and EXA1 has the two rows of EX9E in the other order. -/
theorem skipsOnAKey : Obligations.SkipsOnAKey := by
  intro x s
  constructor
  · intro k hk
    have hnumber : ¬0x0F < (s.getV x).toNat := by omega
    have hskp := exec_of_faultOf_eq_none (i := .skp x) (if_neg hnumber)
    have hsknp := exec_of_faultOf_eq_none (i := .sknp x) (if_neg hnumber)
    rw [pcAfter, keyOfReg_eq_keyDown hk] at hskp
    simp only [pcAfter, keyOfReg_eq_keyDown hk, ← Bool.not_eq_true, ite_not] at hsknp
    exact ⟨hskp, hsknp⟩
  · intro hnumber
    exact ⟨⟨_, exec_of_faultOf_eq_some (if_pos hnumber), rfl⟩, ⟨_, exec_of_faultOf_eq_some (if_pos hnumber), rfl⟩⟩

/-! ### The wait for a key (R193) -/

/-- The scan of FX0A visits key n at its position n. -/
theorem toNat_getElem_keyOrder : ∀ (n : Nat) (hn : n < keyOrder.length), keyOrder[n].toNat = n := by decide

theorem lowestKeyDown_eq_some {s : State} {k : Reg} (hk : s.keyDown k = true)
    (hbelow : ∀ j : Reg, j.toNat < k.toNat → s.keyDown j = false) : s.lowestKeyDown = some k := by
  refine List.find?_eq_some_iff_getElem.mpr
    ⟨hk, k.toNat, k.isLt, BitVec.eq_of_toNat_eq (toNat_getElem_keyOrder _ _), fun j hj => ?_⟩
  rw [hbelow _ ((toNat_getElem_keyOrder _ _).trans_lt hj), Bool.not_false]

theorem lowestKeyDown_eq_none {s : State} (h : ∀ k : Reg, s.keyDown k = false) : s.lowestKeyDown = none :=
  List.find?_eq_none.mpr fun k _ => Bool.eq_false_iff.mp (h k)

theorem exec_ldVxK_of_some (x : Reg) {s : State} {k : Reg} (h : s.lowestKeyDown = some k) :
    exec (.ldVxK x) s = .next ((s.stage (encode (.ldVxK x))).setV x (k.setWidth 8)) := by
  simp only [exec, execLdVxK, h]

/-- With no key found the 2 added to PC by the staging is taken off again. -/
theorem exec_ldVxK_of_none (x : Reg) {s : State} (h : s.lowestKeyDown = none) :
    exec (.ldVxK x) s = .next { s with cur := fieldsOf (encode (.ldVxK x)) } := by
  simp only [exec, execLdVxK, h, stage_pc, BitVec.add_sub_cancel]
  rfl

/-- Settles O47: the scan in ascending order finds the lowest key, whose number fits a byte. -/
theorem waitForKeyTakesTheLowest : Obligations.WaitForKeyTakesTheLowest := by
  intro x s
  constructor
  · intro k hk hbelow
    have hexec := exec_ldVxK_of_some x (lowestKeyDown_eq_some hk hbelow)
    refine ⟨_, hexec, ?_, fun r hr => getV_of_exec hexec (by simpa [mayWriteReg] using hr), ⟨rfl, rfl⟩,
      keepsAllBut_of_exec hexec⟩
    rw [getV_setV_self, BitVec.toNat_setWidth_of_le (by decide)]
  · exact fun hnone => exec_ldVxK_of_none x (lowestKeyDown_eq_none hnone)

end Sys2Proof.Machine
end

section
/-! PROOFS. The timers: the timer transfers FX07, FX15 and FX18. -/

namespace Sys2Proof.Machine

open Sys2Proof

/-- Settles O48: none of the three can fault, each is one write beside the staging, and the staging leaves the register
or timer that it reads. -/
theorem timerTransfers : Obligations.TimerTransfers := by
  intro x s
  refine ⟨⟨_, rfl, ?readsDelayTimer, registerFrame_of_exec rfl⟩, ⟨_, rfl, ?setsDelayTimer, frame_of_exec rfl⟩,
    ⟨_, rfl, ?setsSoundTimer, frame_of_exec rfl⟩⟩
  case readsDelayTimer => exact getV_setV_self _ _ _
  case setsDelayTimer => exact setDelayTimer_delayTimer _ _
  case setsSoundTimer => exact setSoundTimer_soundTimer _ _

end Sys2Proof.Machine
end

section
/-! PROOFS. Faults and the run state: a fault that a step enters is precise, an instruction faults by the table R210
alone, pause and resume act in one run state each, and no operation on a Machine leaves Halted. -/

namespace Sys2Proof.Machine

open Sys2Proof

/-! ### Entering a fault (R210, R215, R216, R220) -/

/-- Settles O10: of the four things a step can do only two enter Halted, the fault at the fetch and that of an
instruction, and each is one `raise`, whose word is the one fetched. -/
theorem faultsArePrecise : Obligations.FaultsArePrecise := by
  intro s t hs hstep ht
  obtain ⟨hn, -⟩ | ⟨-, hf, rfl⟩ | ⟨-, op, i, hf, hd, hexec⟩ | ⟨-, op, _, -, -, rfl⟩ := step_cases s t hstep
  · exact absurd hs hn
  · exact ⟨_, by rw [hf]; rfl⟩
  · obtain ⟨kind, -, rfl⟩ | hc := faultsOrCompletes_of_exec hexec
    · exact ⟨kind, by rw [hf, encode_of_decode hd]; rfl⟩
    · simp [hc.runState, hs] at ht
  · simp [hs] at ht

/-- Settles O11: an instruction faults or completes, and which of the two the table R210 says. -/
theorem stepFaultsExactlyAsTabled : Obligations.StepFaultsExactlyAsTabled := by
  intro s op i hs hf hd
  obtain ⟨t, ht, hc⟩ := exec_faults_or_completes i s
  refine ⟨t, (step_of_decode_instr hs hf hd).trans ht, fun kind htable => ?faults, fun htable => ?completes⟩
  case faults =>
    cases (exec_of_faultOf_eq_some htable).symm.trans ht
    rw [encode_of_decode hd]
    rfl
  case completes =>
    obtain ⟨kind, hkind, -⟩ | hc := hc
    · exact nomatch htable.symm.trans hkind
    · exact ⟨hc.runState.trans hs, hc.fault⟩

/-! ### pause and resume by the run state (R236) -/

theorem pause_of_running {s : State} (h : s.runState = .running) : s.pause = { s with runState := .paused } := by
  simp [State.pause, h]

theorem pause_of_ne_running {s : State} (h : s.runState ≠ .running) : s.pause = s := by
  unfold State.pause
  split
  · next hr => exact absurd hr h
  · rfl
  · rfl

theorem resume_of_paused {s : State} (h : s.runState = .paused) : s.resume = { s with runState := .running } := by
  simp [State.resume, h]

theorem resume_of_ne_paused {s : State} (h : s.runState ≠ .paused) : s.resume = s := by
  unfold State.resume
  split
  · rfl
  · next hp => exact absurd hp h
  · rfl

/-- Settles O52: each request acts in one run state and is ignored in the other two. -/
theorem pauseAndResume : Obligations.PauseAndResume := by
  refine fun s => ⟨fun h => ⟨pause_of_running h, resume_of_ne_paused ?_⟩,
    fun h => ⟨pause_of_ne_running ?_, resume_of_paused h⟩,
    fun h => ⟨pause_of_ne_running ?_, resume_of_ne_paused ?_⟩⟩ <;> simp [h]

/-! ### Halted (R221) -/

/-- Settles O12: Halted is neither Running nor Paused, and a tick and a key edge leave the run state alone. -/
theorem haltedIsTerminal : Obligations.HaltedIsTerminal := by
  intro s h
  have hrunning : s.runState ≠ .running := by simp [h]
  have hpaused : s.runState ≠ .paused := by simp [h]
  exact ⟨step_of_not_running s hrunning, resume_of_ne_paused hpaused, pause_of_ne_running hrunning, h, fun _ _ => h⟩

end Sys2Proof.Machine
end

section
/-! PROOFS. The host's operations: what a tick and a key edge write, which images construct takes, that each operation
keeps the invariant, and the order of a frame's operations. -/

namespace Sys2Proof.Machine

open Sys2Proof

/-! ### tick_timers (R230, R231) -/

@[simp] theorem toNat_tickTimer (b : Byte) : (tickTimer b).toNat = b.toNat - 1 := by
  unfold tickTimer
  split
  · next h => simp [h]
  · next h => bv_omega

/-- Settles O49: the two timers are the components a tick writes. -/
theorem tickDecrementsNonZeroTimers : Obligations.TickDecrementsNonZeroTimers :=
  fun _ => ⟨toNat_tickTimer _, toNat_tickTimer _, rfl⟩

/-- Settles O50, by induction on the number of ticks: the last tick takes 1 from what the ones before left. -/
theorem timerReachesZeroAfterItsValue : Obligations.TimerReachesZeroAfterItsValue := by
  intro k s
  induction k with
  | zero => exact ⟨rfl, rfl⟩
  | succ k ih =>
    obtain ⟨hdelay, hsound⟩ := ih
    rw [Function.iterate_succ_apply', tickTimers_delayTimer, tickTimers_soundTimer, toNat_tickTimer, toNat_tickTimer,
      hdelay, hsound]
    exact ⟨Nat.sub_sub .., Nat.sub_sub ..⟩

/-! ### set_key (R233) -/

theorem keyDown_setKey (s : State) (k : Fin 16) (pressed : Bool) (j : Reg) :
    (s.setKey k pressed).keyDown j = if j.toNat = k.val then pressed else s.keyDown j := by
  simp only [State.keyDown, setKey_keypad, Vector.getElem_set, eq_comm]

/-- Settles O51: the keypad is the one component a key edge writes, at the one key's cell. -/
theorem setKeyWritesOneCell : Obligations.SetKeyWritesOneCell :=
  fun s k pressed => ⟨keyDown_setKey s k pressed, rfl⟩

/-! ### construct (R250, R251) -/

theorem construct_of_lt_length {image : List Byte} (h : 3584 < image.length) :
    construct image = .fault .imageTooLarge :=
  if_neg (by simpa [imageWellFormed] using h)

/-- construct answers a Machine only for an image that fits, and then the one it loads. -/
theorem construct_eq_next {image : List Byte} {m : State} (h : construct image = .next m) :
    image.length ≤ 3584 ∧ m = State.reset.writeBytes 0x200 image := by
  by_cases hlen : image.length ≤ 3584
  · cases (construct_of_length_le hlen).symm.trans h
    exact ⟨hlen, rfl⟩
  · exact nomatch (construct_of_lt_length (Nat.not_le.mp hlen)).symm.trans h

/-- Settles O55: 3584 is the longest image that construct takes. -/
theorem constructRefusesLongImages : Obligations.ConstructRefusesLongImages :=
  fun _ => ⟨construct_of_lt_length, fun h => ⟨_, construct_of_length_le (Nat.le_of_eq h)⟩⟩

/-! ### The invariant -/

/-- An image that fits is stored inside memory, and the rest of reset meets the invariant. -/
theorem State.Inv.of_construct {image : List Byte} {m : State} (h : construct image = .next m) : m.Inv := by
  obtain ⟨hlen, rfl⟩ := construct_eq_next h
  exact .of_running rfl rfl (Memory.wf_writeBytes _ _ _ Memory.wf_nil (by omega)) resetMeetsInvariant.current
    resetMeetsInvariant.pcBound resetMeetsInvariant.returns

/-- The invariant does not speak of the timers. -/
theorem State.Inv.tickTimers {s : State} (hs : s.Inv) : s.tickTimers.Inv := { hs with }

/-- The invariant does not speak of the keypad. -/
theorem State.Inv.setKey {s : State} (hs : s.Inv) (k : Fin 16) (pressed : Bool) : (s.setKey k pressed).Inv :=
  { hs with }

/-- Of the run state the invariant says only whether it is Halted. -/
theorem State.Inv.withRunState {s : State} (hs : s.Inv) {r : RunState} (h : r = .halted ↔ s.runState = .halted) :
    State.Inv { s with runState := r } :=
  { hs with halted := h.trans hs.halted }

theorem State.Inv.pause {s : State} (hs : s.Inv) : s.pause.Inv := by
  by_cases hr : s.runState = .running
  · rw [pause_of_running hr]
    exact hs.withRunState (by simp [hr])
  · rwa [pause_of_ne_running hr]

theorem State.Inv.resume {s : State} (hs : s.Inv) : s.resume.Inv := by
  by_cases hp : s.runState = .paused
  · rw [resume_of_paused hp]
    exact hs.withRunState (by simp [hp])
  · rwa [resume_of_ne_paused hp]

/-- Settles O18: one lemma for each operation. -/
theorem hostOperationsKeepInvariant : Obligations.HostOperationsKeepInvariant :=
  ⟨fun _ _ => .of_construct, fun _ hs => ⟨hs.tickTimers, hs.pause, hs.resume, hs.setKey⟩⟩

/-! ### Sequences of operations and a frame (R240) -/

theorem applyOps_cons_of_next {op : HostOp} {s t : State} (h : applyOp op s = .next t) (ops : List HostOp) :
    applyOps (op :: ops) s = applyOps ops t := by
  rw [applyOps, h]

/-- A sequence that completes did so operation by operation. -/
theorem applyOps_cons_eq_next {op : HostOp} {ops : List HostOp} {s t : State}
    (h : applyOps (op :: ops) s = .next t) : ∃ u, applyOp op s = .next u ∧ applyOps ops u = .next t := by
  rw [applyOps] at h
  split at h
  · next u hu => exact ⟨u, hu, h⟩
  · cases h
  · cases h

/-- After a sequence that completes, the operations behind it run from the state it leaves. -/
theorem applyOps_append_of_next {ops : List HostOp} {s t : State} (h : applyOps ops s = .next t)
    (rest : List HostOp) : applyOps (ops ++ rest) s = applyOps rest t := by
  induction ops generalizing s with
  | nil =>
    cases h
    rfl
  | cons op ops ih =>
    obtain ⟨u, hu, hrest⟩ := applyOps_cons_eq_next h
    exact (applyOps_cons_of_next hu _).trans (ih hrest)

theorem applyOp_setKey {k : Nat} (h : k < 16) (pressed : Bool) (s : State) :
    applyOp (.setKey k pressed) s = .next (s.setKey (Fin.ofNat 16 k) pressed) := by
  have hk : (⟨k, h⟩ : Fin 16) = Fin.ofNat 16 k := Fin.ext (Nat.mod_eq_of_lt h).symm
  rw [applyOp, dif_pos h, hk]

/-- Key edges with numbers of keys all complete, in order. -/
theorem applyOps_setKeys {keys : List (Nat × Bool)} (h : ∀ k ∈ keys, k.1 < 16) (s : State) :
    applyOps (keys.map fun k => .setKey k.1 k.2) s =
      .next (keys.foldl (fun u k => u.setKey (Fin.ofNat 16 k.1) k.2) s) := by
  induction keys generalizing s with
  | nil => rfl
  | cons k keys ih =>
    obtain ⟨hk, hkeys⟩ := List.forall_mem_cons.mp h
    exact (applyOps_cons_of_next (applyOp_setKey hk k.2 s) _).trans (ih hkeys _)

/-- Steps all complete, for each one answers a next state (R96). -/
theorem applyOps_steps (n : Nat) (s : State) : ∃ t, applyOps (List.replicate n .step) s = .next t := by
  induction n generalizing s with
  | zero => exact ⟨s, rfl⟩
  | succ n ih =>
    obtain ⟨u, hu⟩ : ∃ u, applyOp .step s = .next u := stepAlwaysAnswersNext s
    obtain ⟨t, ht⟩ := ih u
    exact ⟨t, (applyOps_cons_of_next hu _).trans ht⟩

/-- Settles O56: the key edges complete, then the steps do, and the tick is the one operation left. -/
theorem frameRunsKeysThenStepsThenTick : Obligations.FrameRunsKeysThenStepsThenTick := by
  intro f s hkeys
  obtain ⟨v, hv⟩ := applyOps_steps f.steps (f.keys.foldl (fun u k => u.setKey (Fin.ofNat 16 k.1) k.2) s)
  refine ⟨_, v, rfl, hv, ?_⟩
  rw [applyFrame, HostFrame.ops, List.append_assoc, applyOps_append_of_next (applyOps_setKeys hkeys s),
    applyOps_append_of_next hv]
  rfl

end Sys2Proof.Machine
end
